-- ==== Sys2Proof/Word.lean ====
section
/-! DEFINITION. The widths the spec names: byte, word (4 bytes), doubleword (8 bytes), and the register and shift
numbers an instruction carries (00_scope.md R6, R16, R19, glossary). -/

namespace Sys2Proof

/-- 8 bits, the unit of storage (20_memory.md R40). -/
abbrev Byte := BitVec 8

/-- 4 bytes (R16): an instruction word, a single-format operand. -/
abbrev Word := BitVec 32

/-- 8 bytes (R16): a general register, a floating-point register, an effective address, `pc` (R6, R24). -/
abbrev Doubleword := BitVec 64

/-- A register number, 0 to 31 (R19, R20, R22). -/
abbrev Reg := Fin 32

/-- The value of the SH operand. SH_BITS is a parameter from 1 to 5 (R7), so SH is below 32 whatever it is;
`Instr.wellFormed` checks it against the configured width. -/
abbrev Shift := Fin 32

end Sys2Proof
end

