-- ==== Sys2Proof/Config.lean ====
section
/-! DEFINITION. The parameters of a run (00_scope.md R6 to R9), as plain data that State carries so that a statement
about every state is a statement about every parameter value, and the one free value (R18). -/

namespace Sys2Proof

/-- The byte order of data accesses and of instruction fetch, fixed for a run (20_memory.md R43). -/
inductive ByteOrder where
  | be
  | le
  deriving DecidableEq, Repr

/-- What a data access whose EA is not a multiple of its size does (20_memory.md R45). -/
inductive AlignPolicy where
  | perform
  | fault
  deriving DecidableEq, Repr

/-- The kinds of access `MemValid` distinguishes (20_memory.md R42). -/
inductive AccessKind where
  | load
  | store
  | fetch
  deriving DecidableEq, Repr

/-- One region of the platform's map: the bytes `first` to `last`, both included, and the kinds of access it
permits. `MemValid(a, kind)` is a list of these (20_memory.md R42). -/
structure Region where
  first : Nat
  last : Nat
  load : Bool
  store : Bool
  fetch : Bool
  deriving DecidableEq, Repr

/-- A field of an instruction word: bits `first` to `last`, both included, numbered from 0 at the most significant
end (R10). -/
structure Field where
  first : Nat
  last : Nat
  deriving DecidableEq, Repr

/-- The opcode numbers of one load: the primary opcode PO_m, 6 bits, and the extended opcode XO_m, as wide as the
layout's XO field (R8, 30_encoding.md R63). -/
structure Opcode where
  po : BitVec 6
  xo : Nat
  deriving DecidableEq, Repr

/-- The OPEN opcode parameters of the six loads (R8, 30_encoding.md R63). -/
structure LoadOpcodes where
  lfssx : Opcode
  lfsusx : Opcode
  lfdsx : Opcode
  lfdusx : Opcode
  lfiwasx : Opcode
  lfiwzsx : Opcode
  deriving DecidableEq, Repr

/-- The parameters a run fixes (R7 to R9); no instruction changes them (10_state.md R30). -/
structure Config where
  byteOrder : ByteOrder
  alignPolicy : AlignPolicy
  memMap : List Region
  resetPC : Doubleword
  shField : Field
  xoField : Field
  opcodes : LoadOpcodes
  deriving DecidableEq, Repr

/-- The layout of 30_encoding.md R62 (b) for the default SH_BITS = 2: SH in bits 21:22. -/
def Config.defaultShField : Field := { first := 21, last := 22 }

/-- The layout of 30_encoding.md R62 (b) for the default SH_BITS = 2: XO in bits 23:30. -/
def Config.defaultXoField : Field := { first := 23, last := 30 }

/-- The opcode assignment TEST-A of 95_test_vectors.md section 8. DESIGN CHOICE (log entry 8, unsafe): no source
assigns these numbers. -/
def Config.testA : LoadOpcodes :=
  { lfssx := { po := 1, xo := 1 }, lfsusx := { po := 1, xo := 2 }, lfdsx := { po := 1, xo := 3 },
    lfdusx := { po := 1, xo := 4 }, lfiwasx := { po := 1, xo := 5 }, lfiwzsx := { po := 1, xo := 6 } }

/-- A map that permits every access: "constantly true" (20_memory.md R42). -/
def Config.wholeSpace : List Region :=
  [{ first := 0, last := 2 ^ 64 - 1, load := true, store := true, fetch := true }]

/-- The parameters of `State.reset`. DESIGN CHOICE (log entries 4, 5, 6, 8, unsafe): each is OPEN in the spec, the
values are those 95_test_vectors.md uses by default, and no statement about every state rests on them. -/
def Config.atReset : Config :=
  { byteOrder := .be, alignPolicy := .perform, memMap := Config.wholeSpace, resetPC := 0x100,
    shField := Config.defaultShField, xoField := Config.defaultXoField, opcodes := Config.testA }

/-- FREE VALUE. The word that the n-th `draw_32()` of a run yields (R18, 93_implementation_defined.md U1, U3): it
has no body, so nothing can be proved about its value. Log entry 10. -/
opaque Config.freeWord : Nat → Word

end Sys2Proof
end

