-- ==== Sys2Proof/Syntax.lean ====
section
/-! DEFINITION. The fifteen instructions (00_scope.md R1), one constructor per row of opcode_table.json, operands in
assembler order (30_encoding.md R70). -/

namespace Sys2Proof

/-- The instructions. `frt` and `frs` name floating-point registers, `ra` and `rb` general registers, `sh` is the
SH field and `d` the 16-bit displacement pattern (R19). -/
inductive Instr where
  | lfssx (frt ra rb : Reg) (sh : Shift)
  | lfsusx (frt ra rb : Reg) (sh : Shift)
  | lfdsx (frt ra rb : Reg) (sh : Shift)
  | lfdusx (frt ra rb : Reg) (sh : Shift)
  | lfiwasx (frt ra rb : Reg) (sh : Shift)
  | lfiwzsx (frt ra rb : Reg) (sh : Shift)
  | stfs (frs : Reg) (d : BitVec 16) (ra : Reg)
  | stfsx (frs ra rb : Reg)
  | stfsu (frs : Reg) (d : BitVec 16) (ra : Reg)
  | stfsux (frs ra rb : Reg)
  | stfd (frs : Reg) (d : BitVec 16) (ra : Reg)
  | stfdx (frs ra rb : Reg)
  | stfdu (frs : Reg) (d : BitVec 16) (ra : Reg)
  | stfdux (frs ra rb : Reg)
  | stfiwx (frs ra rb : Reg)
  deriving DecidableEq, Repr

/-- The six loads, as rows of the opcode table (30_encoding.md R63). -/
inductive LoadOp where
  | lfssx
  | lfsusx
  | lfdsx
  | lfdusx
  | lfiwasx
  | lfiwzsx
  deriving DecidableEq, Repr

/-- The nine stores, as rows of the opcode table (30_encoding.md R64). -/
inductive StoreOp where
  | stfs
  | stfsu
  | stfd
  | stfdu
  | stfsx
  | stfsux
  | stfdx
  | stfdux
  | stfiwx
  deriving DecidableEq, Repr

end Sys2Proof
end

