-- ==== Sys2Proof/WellFormed.lean ====
section
/-! DEFINITION. Which instructions a word can encode (the range of SH, 00_scope.md R19, 30_encoding.md R65), and which
encodable instructions are valid forms (30_encoding.md R68). -/

namespace Sys2Proof

/-- The width of a field in bits. -/
def Field.width (f : Field) : Nat := f.last + 1 - f.first

/-- SH_BITS, the width of the SH operand (R7). -/
def Config.shBits (cfg : Config) : Nat := cfg.shField.width

/-- The operands are in the range the encoding admits. Register numbers and D are by their types; SH must be in
`0 .. 2^SH_BITS - 1` (R19). -/
def Instr.wellFormed (cfg : Config) : Instr → Bool
  | .lfssx _ _ _ sh => decide (sh.val < 2 ^ cfg.shBits)
  | .lfsusx _ _ _ sh => decide (sh.val < 2 ^ cfg.shBits)
  | .lfdsx _ _ _ sh => decide (sh.val < 2 ^ cfg.shBits)
  | .lfdusx _ _ _ sh => decide (sh.val < 2 ^ cfg.shBits)
  | .lfiwasx _ _ _ sh => decide (sh.val < 2 ^ cfg.shBits)
  | .lfiwzsx _ _ _ sh => decide (sh.val < 2 ^ cfg.shBits)
  | .stfs _ _ _ => true
  | .stfsx _ _ _ => true
  | .stfsu _ _ _ => true
  | .stfsux _ _ _ => true
  | .stfd _ _ _ => true
  | .stfdx _ _ _ => true
  | .stfdu _ _ _ => true
  | .stfdux _ _ _ => true
  | .stfiwx _ _ _ => true

/-- "If RA=0, the instruction form is invalid.", said of the six update forms and of nothing else (30_encoding.md
R68). An invalid form is encodable: it decodes, and then raises `InvalidForm`. -/
def Instr.validForm : Instr → Bool
  | .lfssx _ _ _ _ => true
  | .lfsusx _ ra _ _ => decide (ra ≠ 0)
  | .lfdsx _ _ _ _ => true
  | .lfdusx _ ra _ _ => decide (ra ≠ 0)
  | .lfiwasx _ _ _ _ => true
  | .lfiwzsx _ _ _ _ => true
  | .stfs _ _ _ => true
  | .stfsx _ _ _ => true
  | .stfsu _ _ ra => decide (ra ≠ 0)
  | .stfsux _ ra _ => decide (ra ≠ 0)
  | .stfd _ _ _ => true
  | .stfdx _ _ _ => true
  | .stfdu _ _ ra => decide (ra ≠ 0)
  | .stfdux _ ra _ => decide (ra ≠ 0)
  | .stfiwx _ _ _ => true

end Sys2Proof
end

