-- ==== Sys2Proof/Decode.lean ====
section
/-! DEFINITION. Bit fields (00_scope.md R10), byte order (20_memory.md R43), the decoder (30_encoding.md R66), the
encoder written from the layouts of R61 and R62, and the constraints on the encoding parameters (R63). -/

namespace Sys2Proof

/-- `v[a:b]` of an N-bit value, bits numbered from 0 at the most significant end (R10). -/
def slice (n a b v : Nat) : Nat := v / 2 ^ (n - 1 - b) % 2 ^ (b - a + 1)

/-- `w[a:b]` of an instruction word. -/
def wordField (w : Word) (f : Field) : Nat := slice 32 f.first f.last w.toNat

/-- A 5-bit field as a register number (30_encoding.md R65). -/
def regOf (n : Nat) : Reg := Fin.ofNat 32 n

/-! ## Byte order (20_memory.md R43) -/

/-- `byte_0(v) .. byte_(n-1)(v)`: the bytes of the 8n-bit value `v`, most significant first. -/
def bytesOf (n v : Nat) : List Byte := (List.range n).map fun k => BitVec.ofNat 8 (v / 256 ^ (n - 1 - k))

/-- The value whose bytes, most significant first, are the list. -/
def valueOf (bs : List Byte) : Nat := bs.foldl (fun acc b => acc * 256 + b.toNat) 0

/-- The bytes of an 8n-bit value at ascending addresses. -/
def layOut : ByteOrder → Nat → Nat → List Byte
  | .be, n, v => bytesOf n v
  | .le, n, v => (bytesOf n v).reverse

/-- The value held by bytes at ascending addresses. -/
def assemble : ByteOrder → List Byte → Nat
  | .be, bs => valueOf bs
  | .le, bs => valueOf bs.reverse

/-! ## The opcode table -/

/-- The rows of the loads. -/
def LoadOp.all : List LoadOp := [.lfssx, .lfsusx, .lfdsx, .lfdusx, .lfiwasx, .lfiwzsx]

/-- The rows of the stores, in the order of 30_encoding.md R64. -/
def StoreOp.all : List StoreOp := [.stfs, .stfsu, .stfd, .stfdu, .stfsx, .stfsux, .stfdx, .stfdux, .stfiwx]

/-- The mask column of 30_encoding.md R64. -/
def StoreOp.mask : StoreOp → Word
  | .stfs => 0xFC000000
  | .stfsu => 0xFC000000
  | .stfd => 0xFC000000
  | .stfdu => 0xFC000000
  | .stfsx => 0xFC0007FF
  | .stfsux => 0xFC0007FF
  | .stfdx => 0xFC0007FF
  | .stfdux => 0xFC0007FF
  | .stfiwx => 0xFC0007FF

/-- The match column of 30_encoding.md R64. -/
def StoreOp.pattern : StoreOp → Word
  | .stfs => 0xD0000000
  | .stfsu => 0xD4000000
  | .stfd => 0xD8000000
  | .stfdu => 0xDC000000
  | .stfsx => 0x7C00052E
  | .stfsux => 0x7C00056E
  | .stfdx => 0x7C0005AE
  | .stfdux => 0x7C0005EE
  | .stfiwx => 0x7C0007AE

/-- A word is the instruction of a row when `w AND mask = match` (30_encoding.md R64). -/
def StoreOp.isRowOf (op : StoreOp) (w : Word) : Bool := w &&& op.mask == op.pattern

/-- The instruction of a store row, its operand fields taken from the word: FRS = w[6:10], RA = w[11:15], and
D = w[16:31] in the D-Form or RB = w[16:20] in the X-Form (30_encoding.md R61, R62, R66). -/
def StoreOp.instrOf (op : StoreOp) (w : Word) : Instr :=
  let frs := regOf (wordField w { first := 6, last := 10 })
  let ra := regOf (wordField w { first := 11, last := 15 })
  let rb := regOf (wordField w { first := 16, last := 20 })
  let d := BitVec.ofNat 16 (wordField w { first := 16, last := 31 })
  match op with
  | .stfs => .stfs frs d ra
  | .stfsu => .stfsu frs d ra
  | .stfd => .stfd frs d ra
  | .stfdu => .stfdu frs d ra
  | .stfsx => .stfsx frs ra rb
  | .stfsux => .stfsux frs ra rb
  | .stfdx => .stfdx frs ra rb
  | .stfdux => .stfdux frs ra rb
  | .stfiwx => .stfiwx frs ra rb

/-- The pair (PO_m, XO_m) of a load (30_encoding.md R63). -/
def Config.opcode (cfg : Config) : LoadOp → Opcode
  | .lfssx => cfg.opcodes.lfssx
  | .lfsusx => cfg.opcodes.lfsusx
  | .lfdsx => cfg.opcodes.lfdsx
  | .lfdusx => cfg.opcodes.lfdusx
  | .lfiwasx => cfg.opcodes.lfiwasx
  | .lfiwzsx => cfg.opcodes.lfiwzsx

/-- `w[0:5] = PO_m and w[23:30] = XO_m and w[31] = 0`, with XO where the layout has it (30_encoding.md R66). -/
def LoadOp.isRowOf (cfg : Config) (w : Word) (op : LoadOp) : Bool :=
  wordField w { first := 0, last := 5 } == (cfg.opcode op).po.toNat &&
    wordField w cfg.xoField == (cfg.opcode op).xo && wordField w { first := 31, last := 31 } == 0

/-- A load of the given row. -/
def LoadOp.instr (op : LoadOp) (frt ra rb : Reg) (sh : Shift) : Instr :=
  match op with
  | .lfssx => .lfssx frt ra rb sh
  | .lfsusx => .lfsusx frt ra rb sh
  | .lfdsx => .lfdsx frt ra rb sh
  | .lfdusx => .lfdusx frt ra rb sh
  | .lfiwasx => .lfiwasx frt ra rb sh
  | .lfiwzsx => .lfiwzsx frt ra rb sh

/-- The ONE function that extracts the operand fields of the six loads (30_encoding.md R62 (b)): FRT = w[6:10],
RA = w[11:15], RB = w[16:20], and SH where the layout has it. -/
def LoadOp.instrOf (cfg : Config) (w : Word) (op : LoadOp) : Instr :=
  op.instr (regOf (wordField w { first := 6, last := 10 })) (regOf (wordField w { first := 11, last := 15 }))
    (regOf (wordField w { first := 16, last := 20 })) (Fin.ofNat 32 (wordField w cfg.shField))

/-! ## Decoding -/

/-- Why bytes are no instruction. -/
inductive Reject where
  /-- the word is none of the fifteen instructions (30_encoding.md R66, R69) -/
  | illegalInstruction (w : Word)
  /-- fewer than four bytes were given: every instruction is one 32-bit word (30_encoding.md R60) -/
  | shortWord
  deriving DecidableEq, Repr

/-- The decoding procedure of 30_encoding.md R66, total on 32-bit words. -/
def decode (cfg : Config) (w : Word) : Except Reject Instr :=
  match StoreOp.all.find? (fun op => op.isRowOf w) with
  | some op => .ok (op.instrOf w)
  | none =>
    match LoadOp.all.find? (LoadOp.isRowOf cfg w) with
    | some op => .ok (op.instrOf cfg w)
    | none => .error (.illegalInstruction w)

/-- Decoding from bytes at ascending addresses: the word is assembled in the configured byte order (30_encoding.md
R60), and the rest of the bytes is handed back. -/
def decodeBytes (cfg : Config) : List Byte → Except Reject (Instr × List Byte)
  | b0 :: b1 :: b2 :: b3 :: rest =>
    match decode cfg (BitVec.ofNat 32 (assemble cfg.byteOrder [b0, b1, b2, b3])) with
    | .ok i => .ok (i, rest)
    | .error e => .error e
  | _ => .error .shortWord

/-- The host's probe: the instruction whose bits are `w`, `nbits` of them given and the rest zero, laid out in
storage in the byte order of `Config.atReset` and given to the decoder under those parameters. -/
def decodeTableWord (nbits w : Nat) : Option Instr :=
  match decodeBytes Config.atReset (layOut Config.atReset.byteOrder 4 (w % 2 ^ nbits)) with
  | .ok (i, _) => some i
  | .error _ => none

/-! ## Encoding -/

/-- D-Form (30_encoding.md R61): `PO * 2^26 + FRS * 2^21 + RA * 2^16 + D`. -/
def encodeD (po : Nat) (frs : Reg) (d : BitVec 16) (ra : Reg) : Nat :=
  po * 2 ^ 26 + frs.val * 2 ^ 21 + ra.val * 2 ^ 16 + d.toNat

/-- Plain X-Form (30_encoding.md R62 (a)), with the reserved bit 31 zero. -/
def encodeX (po xo : Nat) (frs ra rb : Reg) : Nat :=
  po * 2 ^ 26 + frs.val * 2 ^ 21 + ra.val * 2 ^ 16 + rb.val * 2 ^ 11 + xo * 2

/-- A value placed in a field of a 32-bit word whose other bits are zero. -/
def Field.place (f : Field) (v : Nat) : Nat := v * 2 ^ (31 - f.last)

/-- X-Form with SH (30_encoding.md R62 (b)), with the reserved bit 31 zero. -/
def encodeShifted (cfg : Config) (op : LoadOp) (frt ra rb : Reg) (sh : Shift) : Nat :=
  (cfg.opcode op).po.toNat * 2 ^ 26 + frt.val * 2 ^ 21 + ra.val * 2 ^ 16 + rb.val * 2 ^ 11 +
    cfg.shField.place sh.val + cfg.xoField.place (cfg.opcode op).xo

/-- The number that the word of an instruction is. Opcode numbers: 30_encoding.md R63, R64. -/
def encodeNat (cfg : Config) : Instr → Nat
  | .lfssx frt ra rb sh => encodeShifted cfg .lfssx frt ra rb sh
  | .lfsusx frt ra rb sh => encodeShifted cfg .lfsusx frt ra rb sh
  | .lfdsx frt ra rb sh => encodeShifted cfg .lfdsx frt ra rb sh
  | .lfdusx frt ra rb sh => encodeShifted cfg .lfdusx frt ra rb sh
  | .lfiwasx frt ra rb sh => encodeShifted cfg .lfiwasx frt ra rb sh
  | .lfiwzsx frt ra rb sh => encodeShifted cfg .lfiwzsx frt ra rb sh
  | .stfs frs d ra => encodeD 52 frs d ra
  | .stfsx frs ra rb => encodeX 31 663 frs ra rb
  | .stfsu frs d ra => encodeD 53 frs d ra
  | .stfsux frs ra rb => encodeX 31 695 frs ra rb
  | .stfd frs d ra => encodeD 54 frs d ra
  | .stfdx frs ra rb => encodeX 31 727 frs ra rb
  | .stfdu frs d ra => encodeD 55 frs d ra
  | .stfdux frs ra rb => encodeX 31 759 frs ra rb
  | .stfiwx frs ra rb => encodeX 31 983 frs ra rb

/-- The word of an instruction. -/
def encode (cfg : Config) (i : Instr) : Word := BitVec.ofNat 32 (encodeNat cfg i)

/-! ## The constraints on the encoding parameters -/

/-- SH (1 to 5 bits, R7) and XO share bits 21:30, the ten bits plain X-Form gives XO, in either order. The spec's
default layout is one of these; for another SH_BITS it leaves the layout OPEN (30_encoding.md R62). DESIGN CHOICE
(log entry 9): only these are considered. -/
def Config.layoutOk (cfg : Config) : Bool :=
  decide (1 ≤ cfg.shBits ∧ cfg.shBits ≤ 5) &&
    (decide (cfg.shField.first = 21 ∧ cfg.xoField.first = cfg.shField.last + 1 ∧ cfg.xoField.last = 30) ||
      decide (cfg.xoField.first = 21 ∧ cfg.shField.first = cfg.xoField.last + 1 ∧ cfg.shField.last = 30))

/-- The extended opcodes of the X-Form stores (30_encoding.md R64). -/
def storeXos : List Nat := [663, 695, 727, 759, 983]

/-- Bits 21:30 of a shifted load, read as the XO of a plain X-Form word: `SH * 2^8 + XO_m` in the default layout
(30_encoding.md R63). -/
def Config.plainXo (cfg : Config) (sh xo : Nat) : Nat := (cfg.shField.place sh + cfg.xoField.place xo) / 2

/-- One load's opcode pair fits its fields and coincides with no store (30_encoding.md R63). -/
def Config.opcodeOk (cfg : Config) (op : LoadOp) : Bool :=
  decide ((cfg.opcode op).xo < 2 ^ cfg.xoField.width) &&
    !([52, 53, 54, 55].contains (cfg.opcode op).po.toNat) &&
    (decide ((cfg.opcode op).po.toNat ≠ 31) ||
      (List.range (2 ^ cfg.shBits)).all fun sh => !(storeXos.contains (cfg.plainXo sh (cfg.opcode op).xo)))

/-- The six pairs are pairwise different and none coincides with a store (30_encoding.md R63). -/
def Config.opcodesOk (cfg : Config) : Bool :=
  decide (LoadOp.all.Pairwise fun a b => cfg.opcode a ≠ cfg.opcode b) && LoadOp.all.all cfg.opcodeOk

/-- The parameters meet the spec's constraints: a layout (R7, R62), an opcode assignment (R63), and a ResetPC that is
a multiple of 4 (R9). -/
def Config.ok (cfg : Config) : Bool :=
  cfg.layoutOk && cfg.opcodesOk && decide (cfg.resetPC.toNat % 4 = 0)

end Sys2Proof
end

