-- ==== Sys2Proof/Machine/State.lean ====
section
/-! DEFINITION. The state of the machine (10_state.md, R20 to R31), the reasons a step stops (60_exceptions.md R122),
and the state after reset (10_state.md R31, 70_reset_and_hazards.md R140). -/

namespace Sys2Proof.Machine

/-- Storage (20_memory.md R40): the bytes that differ from what an unlisted address reads as, by rising address
below 2^64 (`Memory.wf`). -/
abbrev Memory := List Host.Cell

/-- The program text: a finite map from addresses that are multiples of 4 to instruction words, by rising address
(20_memory.md R52). -/
abbrev ProgramText := List (Nat × Word)

/-- The state. The last three fields are no architectural state: the parameters of the run, which no instruction
changes (R30, log entry 1), and two fields of the model's own (log entries 10 and 12). -/
structure State where
  /-- GPR[0..31] (R20). -/
  gpr : Vector Doubleword 32
  /-- FPR[0..31] (R22). -/
  fpr : Vector Doubleword 32
  /-- SPtag[0..31]: whether a single-precision instruction produced the register's contents (R26). -/
  spTag : Vector Bool 32
  /-- The address of the instruction being executed (R24). -/
  pc : Doubleword
  /-- Whether floating-point instructions may execute (R29). -/
  fpAvail : Bool
  /-- Storage (20_memory.md R40). -/
  mem : Memory
  /-- Program (20_memory.md R52); no instruction changes it (R30). -/
  program : ProgramText
  /-- The parameters of the run (R30, log entry 1). -/
  cfg : Config
  /-- The addresses in the domain of `program` of which a store has overwritten a byte: the condition of 20_memory.md
  R53 (log entry 12). -/
  overwritten : List Nat
  /-- How many free values have been drawn (R18, log entry 10). -/
  draws : Nat
  deriving DecidableEq, Repr

/-- The faults, the complete list of 60_exceptions.md R122. A fault ends the run and leaves the state as it was (R120,
R121): the outcome carries no state. Each is safe in the sense of the log: the spec itself ends the run here. -/
inductive Fault where
  /-- Raised by decoding: the word at `pc` is none of the fifteen instructions (R125). Safe. -/
  | illegalInstruction (word : Word) (pc : Doubleword)
  /-- Raised by all fifteen instructions when `FPAvail` is false (R123). Safe. -/
  | fpUnavailable (pc : Doubleword)
  /-- Raised by the six update forms when the RA field is 0 (R124). Safe. -/
  | invalidForm (word : Word) (pc : Doubleword)
  /-- Raised by a data access whose EA is not a multiple of its size, when the platform says so (R127). Safe. -/
  | alignmentFault (ea : Doubleword)
  /-- Raised by a data access (info EA) or a fetch (info `pc`) some byte of which the platform does not let be
  accessed, and by a fetch outside Program (R126, 20_memory.md R52). Safe. -/
  | storageFault (addr : Doubleword) (kind : AccessKind)
  deriving DecidableEq, Repr

/-- The refusals. -/
inductive Refusal where
  /-- Raised by an arm of `exec` that has no meaning yet. Safe. -/
  | notModelled (mnemonic : String)
  /-- Raised by the fetch of code that a store has overwritten, which the spec refuses (20_memory.md R53). Safe. -/
  | overwrittenCode (pc : Doubleword)
  deriving DecidableEq, Repr

/-- What every GPR and FPR holds in `State.reset`. DESIGN CHOICE (log entry 2, unsafe): the spec states no value and
says a model must not assume zero (R140); no statement about every state rests on it. -/
def State.resetRegister : Doubleword := 0x5A5A5A5A5A5A5A58

/-- The machine right after reset (10_state.md R31, 70_reset_and_hazards.md R140): `pc = ResetPC` and every tag true.
The registers, `fpAvail`, the storage and the parameters are OPEN in the spec (log entries 2 to 8, 11). -/
def State.reset : State :=
  { gpr := Vector.replicate 32 State.resetRegister
    fpr := Vector.replicate 32 State.resetRegister
    spTag := Vector.replicate 32 true
    pc := Config.atReset.resetPC
    fpAvail := true
    mem := []
    program := []
    cfg := Config.atReset
    overwritten := []
    draws := 0 }

end Sys2Proof.Machine
end

