-- ==== Sys2Proof/Machine/Memory.lean ====
section
/-! DEFINITION. Storage as a list in canonical form, one byte at a time (20_memory.md R40, R49), and accesses of
several bytes built from it (R41, R43). -/

namespace Sys2Proof.Machine

/-! ## Maps from addresses, as lists -/

/-- The value at a key, if the key is listed. -/
def lookup {α : Type} (k : Nat) : List (Nat × α) → Option α
  | [] => none
  | e :: l => if e.1 = k then some e.2 else lookup k l

/-- The list without a key. -/
def erase {α : Type} (k : Nat) (l : List (Nat × α)) : List (Nat × α) := l.filter fun e => decide (e.1 ≠ k)

/-- An entry placed before the first entry with a larger key. -/
def insertSorted {α : Type} (e : Nat × α) : List (Nat × α) → List (Nat × α)
  | [] => [e]
  | f :: l => if e.1 < f.1 then e :: f :: l else f :: insertSorted e l

/-- The list with the value at a key replaced or added. -/
def put {α : Type} (k : Nat) (v : α) (l : List (Nat × α)) : List (Nat × α) := insertSorted (k, v) (erase k l)

/-! ## One byte -/

/-- What an address that is not listed reads as. DESIGN CHOICE (log entry 3, unsafe at `State.reset` only): the spec
leaves the initial contents to the platform. A state lists every byte that differs, so a statement about every state
is a statement about every contents of storage. -/
def Memory.unlisted : Byte := 0x5A

/-- The byte at an address. -/
def Memory.read (m : Memory) (a : Nat) : Byte := (lookup a m).getD Memory.unlisted

/-- Storage with one byte written; writing what an unlisted address reads as removes the entry. -/
def Memory.write (m : Memory) (a : Nat) (v : Byte) : Memory :=
  if v = Memory.unlisted then erase a m else put a v m

/-- The canonical form: addresses strictly rising and below 2^64, and no entry equal to what an unlisted address
reads as. -/
abbrev Memory.wf (m : Memory) : Prop :=
  m.Pairwise (fun c d => c.1 < d.1) ∧ ∀ c ∈ m, c.1 < 2 ^ 64 ∧ c.2 ≠ Memory.unlisted

/-! ## Several bytes -/

/-- The i-th byte address of an access at `ea`: `(EA + i) mod 2^64` (R41). -/
def byteAddr (ea : Doubleword) (i : Nat) : Nat := (ea.toNat + i) % 2 ^ 64

/-- The n bytes of an access, at ascending addresses (R41). -/
def Memory.readBytes (m : Memory) (ea : Doubleword) (n : Nat) : List Byte :=
  (List.range n).map fun i => m.read (byteAddr ea i)

/-- Storage with the bytes `bs` written at `(EA + i) mod 2^64`, `(EA + i + 1) mod 2^64`, ... (R41). -/
def Memory.writeBytes (m : Memory) (ea : Doubleword) (i : Nat) : List Byte → Memory
  | [] => m
  | b :: bs => Memory.writeBytes (m.write (byteAddr ea i) b) ea (i + 1) bs

end Sys2Proof.Machine
end

