-- ==== Sys2Proof/Machine/Ops.lean ====
section
/-! DEFINITION. The operations every meaning is made of: registers (00_scope.md R12), the tag beside a load (10_state.md
R27), the program counter (R25), the access check and the accesses (20_memory.md R46), a draw (R18), and raising a
fault (60_exceptions.md R120). -/

namespace Sys2Proof.Machine

/-- What a step or an instruction answers (R18, 60_exceptions.md R120). -/
abbrev Outcome := Host.Outcome State Fault Refusal

/-! ## Registers -/

/-- `GPR[r]` (R12). No general register is hard-wired (R20). -/
def State.readGpr (s : State) (r : Reg) : Doubleword := s.gpr[r.val]

/-- `GPR[r] <- v` (R12). -/
def State.writeGpr (s : State) (r : Reg) (v : Doubleword) : State := { s with gpr := s.gpr.set r.val v }

/-- `FPR[r]` (R12). -/
def State.readFpr (s : State) (r : Reg) : Doubleword := s.fpr[r.val]

/-- `SPtag[r]` (R26). -/
def State.tagOf (s : State) (r : Reg) : Bool := s.spTag[r.val]

/-- What a load does to its target: `FPR[r] <- v` and `SPtag[r] <- tag` (40_fp_load_shifted.md R80). -/
def State.loadFpr (s : State) (r : Reg) (v : Doubleword) (tag : Bool) : State :=
  { s with fpr := s.fpr.set r.val v, spTag := s.spTag.set r.val tag }

/-- `pc <- (pc + 4) mod 2^64` (10_state.md R25). -/
def State.advance (s : State) : State := { s with pc := s.pc + 4 }

/-! ## Faults -/

/-- Raising a fault, the one shared operation. A fault is terminal: nothing is saved, no handler is entered, the state
stays as it was (60_exceptions.md R120, R121, R130). There is no return from one (R131). -/
def raise (f : Fault) : Outcome := .fault f

/-- The floating-point availability check, before everything else an instruction does (60_exceptions.md R123). -/
def requireFp (s : State) (k : Outcome) : Outcome := if s.fpAvail then k else raise (.fpUnavailable s.pc)

/-- The form check of the update forms: RA = 0 raises `InvalidForm` with the instruction's word (60_exceptions.md
R124). The word is recomputed from the instruction (log entry 13). -/
def requireForm (i : Instr) (s : State) (k : Outcome) : Outcome :=
  if i.validForm then k else raise (.invalidForm (encode s.cfg i) s.pc)

/-! ## Storage -/

/-- Whether a region permits a kind of access. -/
def Region.permits (r : Region) : AccessKind → Bool
  | .load => r.load
  | .store => r.store
  | .fetch => r.fetch

/-- `MemValid(a, kind)` (20_memory.md R42): some region of the platform's map covers the byte and permits the kind. -/
def memValid (cfg : Config) (a : Nat) (k : AccessKind) : Bool :=
  cfg.memMap.any fun r => decide (r.first ≤ a ∧ a ≤ r.last) && Region.permits r k

/-- `MemValid` holds of every byte of the access (20_memory.md R42). -/
def accessValid (cfg : Config) (ea : Doubleword) (n : Nat) (k : AccessKind) : Bool :=
  (List.range n).all fun i => memValid cfg (byteAddr ea i) k

/-- `MemCheck(EA, n, k)` (20_memory.md R46): the fault a data access raises, if any; alignment before validity. -/
def memCheck (s : State) (ea : Doubleword) (n : Nat) (k : AccessKind) : Option Fault :=
  if s.cfg.alignPolicy = .fault ∧ ea.toNat % n ≠ 0 then some (.alignmentFault ea)
  else if accessValid s.cfg ea n k then none
  else some (.storageFault ea k)

/-- The check made before an access (20_memory.md R46). -/
def requireAccess (s : State) (ea : Doubleword) (n : Nat) (k : AccessKind) (next : Outcome) : Outcome :=
  match memCheck s ea n k with
  | none => next
  | some f => raise f

/-- The value `MemRead(EA, 4)` assembles (20_memory.md R43). -/
def State.loadWord (s : State) (ea : Doubleword) : Word :=
  BitVec.ofNat 32 (assemble s.cfg.byteOrder (s.mem.readBytes ea 4))

/-- The value `MemRead(EA, 8)` assembles (20_memory.md R43). -/
def State.loadDoubleword (s : State) (ea : Doubleword) : Doubleword :=
  BitVec.ofNat 64 (assemble s.cfg.byteOrder (s.mem.readBytes ea 8))

/-- Whether an access of n bytes at `ea` touches one of the four bytes at `a`. -/
def touches (ea : Doubleword) (n a : Nat) : Bool :=
  (List.range n).any fun i => decide (a ≤ byteAddr ea i ∧ byteAddr ea i < a + 4)

/-- The addresses of Program that are overwritten once a store of n bytes at `ea` is performed (20_memory.md R53). -/
def markOverwritten (s : State) (ea : Doubleword) (n : Nat) : List Nat :=
  (s.program.map (·.1)).filter fun a => s.overwritten.contains a || touches ea n a

/-- The n byte writes of `MemWrite(EA, n, v)` (20_memory.md R43). Program does not change; the words of it that lose a
byte are marked (R53). -/
def State.storeValue (s : State) (ea : Doubleword) (n v : Nat) : State :=
  { s with
    mem := s.mem.writeBytes ea 0 (layOut s.cfg.byteOrder n v)
    overwritten := markOverwritten s ea n }

/-! ## Draws -/

/-- `draw_32()`: a word nothing constrains, and the state in which the next draw is another one (R18). -/
def State.draw (s : State) : Word × State := (Config.freeWord s.draws, { s with draws := s.draws + 1 })

/-- A value that may be undefined: what it is, or a draw (93_implementation_defined.md U1, U3). -/
def State.orDraw (s : State) : Option Word → Word × State
  | some w => (w, s)
  | none => s.draw

end Sys2Proof.Machine
end

