-- ==== Sys2Proof/Machine/Convert.lean ====
section
/-! DEFINITION. The two conversions between the single and the double format, written from the algorithms of
40_fp_load_shifted.md R82 and 41_fp_store.md R102. Neither reads a rounding mode, sets a flag or raises a fault. -/

namespace Sys2Proof.Machine

/-- The first and third branches of DOUBLE (R82): `w[0:1]`, three copies of a bit, `w[2:31]`, 29 zero bits. -/
def spread (w : Word) (b : Bool) : Doubleword :=
  BitVec.ofNat 64 (slice 32 0 1 w.toNat * 2 ^ 62 + (if b then 7 else 0) * 2 ^ 59 + slice 32 2 31 w.toNat * 2 ^ 29)

/-- The loop of DOUBLE (R82): shift the 53-bit `frac` left until its bit 0 is one, lowering `exp` each time. -/
def normalize : Nat → Nat → Int → Nat × Int
  | 0, frac, exp => (frac, exp)
  | fuel + 1, frac, exp =>
    if slice 53 0 0 frac = 0 then normalize fuel (slice 53 1 52 frac * 2) (exp - 1) else (frac, exp)

/-- The second branch of DOUBLE (R82): a denormalized operand, normalized. `frac` is not zero here, so 53 turns of the
loop are enough. -/
def doubleDenormal (w : Word) : Doubleword :=
  let r := normalize 53 (slice 32 9 31 w.toNat * 2 ^ 29) (-126)
  BitVec.ofNat 64 (slice 32 0 0 w.toNat * 2 ^ 63 + (r.2 + 1023).toNat * 2 ^ 52 + slice 53 1 52 r.1)

/-- `DOUBLE(w)` (R82). -/
def double (w : Word) : Doubleword :=
  if 0 < slice 32 1 8 w.toNat ∧ slice 32 1 8 w.toNat < 255 then spread w (decide (slice 32 1 1 w.toNat = 0))
  else if slice 32 1 8 w.toNat = 0 ∧ slice 32 9 31 w.toNat ≠ 0 then doubleDenormal w
  else spread w (decide (slice 32 1 1 w.toNat = 1))

/-- The loop of SINGLE (R102): shift the 53-bit `frac` right while `exp` is below -126, raising `exp` each time. -/
def denormalize : Nat → Nat → Int → Nat
  | 0, frac, _ => frac
  | fuel + 1, frac, exp => if exp < -126 then denormalize fuel (frac / 2) (exp + 1) else frac

/-- The second branch of SINGLE (R102). The exponent field is at least 874, so `exp` is at least -149 and 23 turns of
the loop are enough. -/
def singleDenormal (d : Doubleword) : Word :=
  let frac := denormalize 23 (2 ^ 52 + slice 64 12 63 d.toNat) ((slice 64 1 11 d.toNat : Int) - 1023)
  BitVec.ofNat 32 (slice 64 0 0 d.toNat * 2 ^ 31 + slice 53 1 23 frac)

/-- `SINGLE(d)` (R102): a selection of bits, or undefined (`none`) for a non-zero value whose exponent field is below
874. -/
def single (d : Doubleword) : Option Word :=
  if 896 < slice 64 1 11 d.toNat ∨ slice 64 1 63 d.toNat = 0 then
    some (BitVec.ofNat 32 (slice 64 0 1 d.toNat * 2 ^ 30 + slice 64 5 34 d.toNat))
  else if 874 ≤ slice 64 1 11 d.toNat ∧ slice 64 1 11 d.toNat ≤ 896 then some (singleDenormal d)
  else none

end Sys2Proof.Machine
end

