-- ==== Sys2Proof/Machine/Flags.lean ====
section
/-! DEFINITION. The fragment has no flag: "Special Registers Altered: None" in all fifteen sections (10_state.md R28).
The one status bit beside a register is its provenance tag (R26); this file says what each load makes of it (R27) and
what `stfiwx` reads through it (41_fp_store.md R111). -/

namespace Sys2Proof.Machine

/-- The tag of a register that a "Load Floating-Point Single ..." instruction produced (10_state.md R27): `lfssx`,
`lfsusx`. -/
def tagOfSingleLoad : Bool := true

/-- The tag of a register that any other load produced (10_state.md R27): `lfdsx`, `lfdusx`, `lfiwasx`, `lfiwzsx`. -/
def tagOfOtherLoad : Bool := false

/-- The word `stfiwx` stores from a register: undefined (`none`) when a single-precision instruction produced the
contents, else `FPR[FRS][32:63]` (41_fp_store.md R111). -/
def integerWord (s : State) (frs : Reg) : Option Word :=
  if s.tagOf frs then none else some (BitVec.ofNat 32 (slice 64 32 63 (s.readFpr frs).toNat))

end Sys2Proof.Machine
end

