-- ==== Sys2Proof/Machine/Operands.lean ====
section
/-! DEFINITION. The operand forms: the base (RA|0) (00_scope.md R13), the shifted index (R14), the displacement
(30_encoding.md R65), the six shapes of effective address (40_fp_load_shifted.md R81, 41_fp_store.md R101), and what
each instruction accesses (20_memory.md R47). -/

namespace Sys2Proof.Machine

/-- `sext_64(v)` (R15). -/
def sext64 {n : Nat} (v : BitVec n) : Doubleword := v.signExtend 64

/-- `zext_64(v)` (R11). -/
def zext64 {n : Nat} (v : BitVec n) : Doubleword := v.setWidth 64

/-- `RA0`: zero when the RA field is 0, else `GPR[RA]` (R13). -/
def baseOrZero (s : State) (ra : Reg) : Doubleword := if ra = 0 then 0 else s.readGpr ra

/-- `shl64(GPR[RB], SH + 1)` (R14). -/
def shiftedIndex (s : State) (rb : Reg) (sh : Shift) : Doubleword := s.readGpr rb <<< (sh.val + 1)

/-- `(RA|0) + (RB)<<(SH+1)` (40_fp_load_shifted.md R81). -/
def eaShifted (s : State) (ra rb : Reg) (sh : Shift) : Doubleword := baseOrZero s ra + shiftedIndex s rb sh

/-- `(RA) + (RB)<<(SH+1)`, the update forms (40_fp_load_shifted.md R81). -/
def eaShiftedUpdate (s : State) (ra rb : Reg) (sh : Shift) : Doubleword := s.readGpr ra + shiftedIndex s rb sh

/-- `(RA|0) + EXTS(D)` (41_fp_store.md R101). -/
def eaDisp (s : State) (d : BitVec 16) (ra : Reg) : Doubleword := baseOrZero s ra + sext64 d

/-- `(RA) + EXTS(D)`, the update forms (41_fp_store.md R101). -/
def eaDispUpdate (s : State) (d : BitVec 16) (ra : Reg) : Doubleword := s.readGpr ra + sext64 d

/-- `(RA|0) + (RB)` (41_fp_store.md R101). -/
def eaIndexed (s : State) (ra rb : Reg) : Doubleword := baseOrZero s ra + s.readGpr rb

/-- `(RA) + (RB)`, the update forms (41_fp_store.md R101). -/
def eaIndexedUpdate (s : State) (ra rb : Reg) : Doubleword := s.readGpr ra + s.readGpr rb

/-! ## What each instruction accesses -/

/-- The effective address of an instruction (R81, R101), by the same functions its meaning uses. -/
def effAddr (i : Instr) (s : State) : Doubleword :=
  match i with
  | .lfssx _ ra rb sh => eaShifted s ra rb sh
  | .lfsusx _ ra rb sh => eaShiftedUpdate s ra rb sh
  | .lfdsx _ ra rb sh => eaShifted s ra rb sh
  | .lfdusx _ ra rb sh => eaShiftedUpdate s ra rb sh
  | .lfiwasx _ ra rb sh => eaShifted s ra rb sh
  | .lfiwzsx _ ra rb sh => eaShifted s ra rb sh
  | .stfs _ d ra => eaDisp s d ra
  | .stfsx _ ra rb => eaIndexed s ra rb
  | .stfsu _ d ra => eaDispUpdate s d ra
  | .stfsux _ ra rb => eaIndexedUpdate s ra rb
  | .stfd _ d ra => eaDisp s d ra
  | .stfdx _ ra rb => eaIndexed s ra rb
  | .stfdu _ d ra => eaDispUpdate s d ra
  | .stfdux _ ra rb => eaIndexedUpdate s ra rb
  | .stfiwx _ ra rb => eaIndexed s ra rb

/-- The bytes column of 20_memory.md R47. -/
def accessBytes : Instr → Nat
  | .lfssx _ _ _ _ => 4
  | .lfsusx _ _ _ _ => 4
  | .lfdsx _ _ _ _ => 8
  | .lfdusx _ _ _ _ => 8
  | .lfiwasx _ _ _ _ => 4
  | .lfiwzsx _ _ _ _ => 4
  | .stfs _ _ _ => 4
  | .stfsx _ _ _ => 4
  | .stfsu _ _ _ => 4
  | .stfsux _ _ _ => 4
  | .stfd _ _ _ => 8
  | .stfdx _ _ _ => 8
  | .stfdu _ _ _ => 8
  | .stfdux _ _ _ => 8
  | .stfiwx _ _ _ => 4

/-- The target of a load; a store has none (10_state.md R23). -/
def loadTarget : Instr → Option Reg
  | .lfssx frt _ _ _ => some frt
  | .lfsusx frt _ _ _ => some frt
  | .lfdsx frt _ _ _ => some frt
  | .lfdusx frt _ _ _ => some frt
  | .lfiwasx frt _ _ _ => some frt
  | .lfiwzsx frt _ _ _ => some frt
  | .stfs _ _ _ => none
  | .stfsx _ _ _ => none
  | .stfsu _ _ _ => none
  | .stfsux _ _ _ => none
  | .stfd _ _ _ => none
  | .stfdx _ _ _ => none
  | .stfdu _ _ _ => none
  | .stfdux _ _ _ => none
  | .stfiwx _ _ _ => none

/-- The kind column of 20_memory.md R47. -/
def accessKind (i : Instr) : AccessKind := if (loadTarget i).isSome then .load else .store

/-- The RA field of an update form, the register it writes EA to; the other forms have none (10_state.md R21). -/
def updateReg : Instr → Option Reg
  | .lfssx _ _ _ _ => none
  | .lfsusx _ ra _ _ => some ra
  | .lfdsx _ _ _ _ => none
  | .lfdusx _ ra _ _ => some ra
  | .lfiwasx _ _ _ _ => none
  | .lfiwzsx _ _ _ _ => none
  | .stfs _ _ _ => none
  | .stfsx _ _ _ => none
  | .stfsu _ _ ra => some ra
  | .stfsux _ ra _ => some ra
  | .stfd _ _ _ => none
  | .stfdx _ _ _ => none
  | .stfdu _ _ ra => some ra
  | .stfdux _ ra _ => some ra
  | .stfiwx _ _ _ => none

end Sys2Proof.Machine
end

