-- ==== Sys2Proof/Machine/Loads.lean ====
section
/-! DEFINITION. The six floating-point load indexed shifted instructions (40_fp_load_shifted.md R84 to R89). The EA of
an update form is computed from the old GPR[RA]; nothing is written when a fault is raised (R80). -/

namespace Sys2Proof.Machine

/-- `lfssx FRT,RA,RB,SH` (40_fp_load_shifted.md R84). -/
def execLfssx (frt ra rb : Reg) (sh : Shift) (s : State) : Outcome :=
  let ea := eaShifted s ra rb sh
  requireFp s <| requireAccess s ea 4 .load <|
    .next (s.loadFpr frt (double (s.loadWord ea)) tagOfSingleLoad).advance

/-- `lfsusx FRT,RA,RB,SH` (40_fp_load_shifted.md R85). -/
def execLfsusx (frt ra rb : Reg) (sh : Shift) (s : State) : Outcome :=
  let ea := eaShiftedUpdate s ra rb sh
  requireFp s <| requireForm (.lfsusx frt ra rb sh) s <| requireAccess s ea 4 .load <|
    .next ((s.loadFpr frt (double (s.loadWord ea)) tagOfSingleLoad).writeGpr ra ea).advance

/-- `lfdsx FRT,RA,RB,SH` (40_fp_load_shifted.md R86). -/
def execLfdsx (frt ra rb : Reg) (sh : Shift) (s : State) : Outcome :=
  let ea := eaShifted s ra rb sh
  requireFp s <| requireAccess s ea 8 .load <|
    .next (s.loadFpr frt (s.loadDoubleword ea) tagOfOtherLoad).advance

/-- `lfdusx FRT,RA,RB,SH` (40_fp_load_shifted.md R87). -/
def execLfdusx (frt ra rb : Reg) (sh : Shift) (s : State) : Outcome :=
  let ea := eaShiftedUpdate s ra rb sh
  requireFp s <| requireForm (.lfdusx frt ra rb sh) s <| requireAccess s ea 8 .load <|
    .next ((s.loadFpr frt (s.loadDoubleword ea) tagOfOtherLoad).writeGpr ra ea).advance

/-- `lfiwasx FRT,RA,RB,SH` (40_fp_load_shifted.md R88). -/
def execLfiwasx (frt ra rb : Reg) (sh : Shift) (s : State) : Outcome :=
  let ea := eaShifted s ra rb sh
  requireFp s <| requireAccess s ea 4 .load <|
    .next (s.loadFpr frt (sext64 (s.loadWord ea)) tagOfOtherLoad).advance

/-- `lfiwzsx FRT,RA,RB,SH` (40_fp_load_shifted.md R89; four operands, 90_conflicts.md C2). -/
def execLfiwzsx (frt ra rb : Reg) (sh : Shift) (s : State) : Outcome :=
  let ea := eaShifted s ra rb sh
  requireFp s <| requireAccess s ea 4 .load <|
    .next (s.loadFpr frt (zext64 (s.loadWord ea)) tagOfOtherLoad).advance

end Sys2Proof.Machine
end

