-- ==== Sys2Proof/Machine/Stores.lean ====
section
/-! DEFINITION. The nine floating-point stores (41_fp_store.md R103 to R111). The EA and the stored value are computed
from the registers before the instruction, and nothing is written when a fault is raised (R112). Where the stored word
is undefined the store is performed all the same, with a draw (R102, R111). -/

namespace Sys2Proof.Machine

/-- The storage write of a single: `MemWrite(EA, 4, w)`, an undefined `w` being a draw (R102, R111). -/
def State.storeWordOrDraw (s : State) (ea : Doubleword) (w : Option Word) : State :=
  (s.orDraw w).2.storeValue ea 4 (s.orDraw w).1.toNat

/-- The storage write of a double: `MemWrite(EA, 8, d)`. -/
def State.storeDoubleword (s : State) (ea d : Doubleword) : State := s.storeValue ea 8 d.toNat

/-- `stfs FRS,D(RA)` (41_fp_store.md R103). -/
def execStfs (frs : Reg) (d : BitVec 16) (ra : Reg) (s : State) : Outcome :=
  let ea := eaDisp s d ra
  requireFp s <| requireAccess s ea 4 .store <|
    .next (s.storeWordOrDraw ea (single (s.readFpr frs))).advance

/-- `stfsx FRS,RA,RB` (41_fp_store.md R104). -/
def execStfsx (frs ra rb : Reg) (s : State) : Outcome :=
  let ea := eaIndexed s ra rb
  requireFp s <| requireAccess s ea 4 .store <|
    .next (s.storeWordOrDraw ea (single (s.readFpr frs))).advance

/-- `stfsu FRS,D(RA)` (41_fp_store.md R105). -/
def execStfsu (frs : Reg) (d : BitVec 16) (ra : Reg) (s : State) : Outcome :=
  let ea := eaDispUpdate s d ra
  requireFp s <| requireForm (.stfsu frs d ra) s <| requireAccess s ea 4 .store <|
    .next ((s.storeWordOrDraw ea (single (s.readFpr frs))).writeGpr ra ea).advance

/-- `stfsux FRS,RA,RB` (41_fp_store.md R106). -/
def execStfsux (frs ra rb : Reg) (s : State) : Outcome :=
  let ea := eaIndexedUpdate s ra rb
  requireFp s <| requireForm (.stfsux frs ra rb) s <| requireAccess s ea 4 .store <|
    .next ((s.storeWordOrDraw ea (single (s.readFpr frs))).writeGpr ra ea).advance

/-- `stfd FRS,D(RA)` (41_fp_store.md R107). -/
def execStfd (frs : Reg) (d : BitVec 16) (ra : Reg) (s : State) : Outcome :=
  let ea := eaDisp s d ra
  requireFp s <| requireAccess s ea 8 .store <|
    .next (s.storeDoubleword ea (s.readFpr frs)).advance

/-- `stfdx FRS,RA,RB` (41_fp_store.md R108). -/
def execStfdx (frs ra rb : Reg) (s : State) : Outcome :=
  let ea := eaIndexed s ra rb
  requireFp s <| requireAccess s ea 8 .store <|
    .next (s.storeDoubleword ea (s.readFpr frs)).advance

/-- `stfdu FRS,D(RA)` (41_fp_store.md R109). -/
def execStfdu (frs : Reg) (d : BitVec 16) (ra : Reg) (s : State) : Outcome :=
  let ea := eaDispUpdate s d ra
  requireFp s <| requireForm (.stfdu frs d ra) s <| requireAccess s ea 8 .store <|
    .next ((s.storeDoubleword ea (s.readFpr frs)).writeGpr ra ea).advance

/-- `stfdux FRS,RA,RB` (41_fp_store.md R110). -/
def execStfdux (frs ra rb : Reg) (s : State) : Outcome :=
  let ea := eaIndexedUpdate s ra rb
  requireFp s <| requireForm (.stfdux frs ra rb) s <| requireAccess s ea 8 .store <|
    .next ((s.storeDoubleword ea (s.readFpr frs)).writeGpr ra ea).advance

/-- `stfiwx FRS,RA,RB` (41_fp_store.md R111; four bytes, 90_conflicts.md C3). -/
def execStfiwx (frs ra rb : Reg) (s : State) : Outcome :=
  let ea := eaIndexed s ra rb
  requireFp s <| requireAccess s ea 4 .store <|
    .next (s.storeWordOrDraw ea (integerWord s frs)).advance

end Sys2Proof.Machine
end

