-- ==== Sys2Proof/Machine/Dispatch.lean ====
section
/-! DEFINITION. The dispatch: one arm per constructor of Instr. -/

namespace Sys2Proof.Machine

/-- What an instruction does (40_fp_load_shifted.md R84 to R89, 41_fp_store.md R103 to R111). -/
def exec (i : Instr) (s : State) : Host.Outcome State Fault Refusal :=
  match i with
  | .lfssx frt ra rb sh => Sys2Proof.Machine.execLfssx frt ra rb sh s
  | .lfsusx frt ra rb sh => Sys2Proof.Machine.execLfsusx frt ra rb sh s
  | .lfdsx frt ra rb sh => Sys2Proof.Machine.execLfdsx frt ra rb sh s
  | .lfdusx frt ra rb sh => Sys2Proof.Machine.execLfdusx frt ra rb sh s
  | .lfiwasx frt ra rb sh => Sys2Proof.Machine.execLfiwasx frt ra rb sh s
  | .lfiwzsx frt ra rb sh => Sys2Proof.Machine.execLfiwzsx frt ra rb sh s
  | .stfs frs d ra => Sys2Proof.Machine.execStfs frs d ra s
  | .stfsx frs ra rb => Sys2Proof.Machine.execStfsx frs ra rb s
  | .stfsu frs d ra => Sys2Proof.Machine.execStfsu frs d ra s
  | .stfsux frs ra rb => Sys2Proof.Machine.execStfsux frs ra rb s
  | .stfd frs d ra => Sys2Proof.Machine.execStfd frs d ra s
  | .stfdx frs ra rb => Sys2Proof.Machine.execStfdx frs ra rb s
  | .stfdu frs d ra => Sys2Proof.Machine.execStfdu frs d ra s
  | .stfdux frs ra rb => Sys2Proof.Machine.execStfdux frs ra rb s
  | .stfiwx frs ra rb => Sys2Proof.Machine.execStfiwx frs ra rb s

end Sys2Proof.Machine
end

