-- ==== Sys2Proof/Machine/Fetch.lean ====
section
/-! DEFINITION. Instruction fetch (20_memory.md R52, R53) and the placing of a word where the next fetch reads. -/

namespace Sys2Proof.Machine

/-- Fetch at `pc`: outside the domain of Program, or where `MemValid(pc + i, fetch)` fails, `StorageFault(pc, fetch)`
(20_memory.md R52); code that a store has overwritten is refused (R53); else the word of Program. -/
def fetch (s : State) : Host.Outcome Word Fault Refusal :=
  match lookup s.pc.toNat s.program with
  | none => .fault (.storageFault s.pc .fetch)
  | some w =>
    if accessValid s.cfg s.pc 4 .fetch = false then .fault (.storageFault s.pc .fetch)
    else if s.overwritten.contains s.pc.toNat then .refused (.overwrittenCode s.pc)
    else .next w

/-- What running a fetched word does: decode it, an unknown word being `IllegalInstruction` (60_exceptions.md R125),
and hand the instruction over. -/
def runWord (run : Instr → State → Outcome) (w : Word) (s : State) : Outcome :=
  match decode s.cfg w with
  | .ok i => run i s
  | .error _ => raise (.illegalInstruction w s.pc)

/-- The parameters with the fetch of the four bytes at `pc` permitted; unchanged where it already is. -/
def allowFetch (cfg : Config) (pc : Doubleword) : Config :=
  if accessValid cfg pc 4 .fetch then cfg
  else { cfg with memMap := cfg.memMap ++ (List.range 4).map fun i =>
    { first := byteAddr pc i, last := byteAddr pc i, load := false, store := false, fetch := true } }

/-- A word placed where the next fetch reads: in Program at `pc`, no longer overwritten, its four bytes mirrored in
storage as 20_memory.md R52 says of the start of a run, and its fetch permitted (log entry 11). -/
def placeWord (s : State) (w : Word) : State :=
  { s with
    program := put s.pc.toNat w s.program
    overwritten := s.overwritten.filter fun a => decide (a ≠ s.pc.toNat)
    mem := s.mem.writeBytes s.pc 0 (layOut s.cfg.byteOrder 4 w.toNat)
    cfg := allowFetch s.cfg s.pc }

end Sys2Proof.Machine
end

