-- ==== Sys2Proof/Machine/Step.lean ====
section
/-! DEFINITION. One step of the machine (10_state.md R32): fetch, decode, then the instruction's own checks and
effects. -/

namespace Sys2Proof.Machine

/-- One step (10_state.md R32). -/
def step (s : State) : Host.Outcome State Fault Refusal :=
  match fetch s with
  | .next w => runWord exec w s
  | .fault f => .fault f
  | .refused r => .refused r

/-- The host's probe: `s` with the instruction whose low `nbits` bits are those of `w`, the rest zero, placed where
`step` fetches next. It stands for the loading of a program from outside the machine (log entry 11). -/
def State.withFetchWord (s : State) (nbits w : Nat) : State := placeWord s (BitVec.ofNat 32 (w % 2 ^ nbits))

end Sys2Proof.Machine
end

