-- ==== Sys2Proof/Safety.lean ====
section
/-! DEFINITION. What counts as a safe run: the invariant of the machine, when an access is allowed (20_memory.md R42,
R45), what must hold for the next step to complete (70_reset_and_hazards.md R141), and the end of a run (R144). -/

namespace Sys2Proof.Machine

/-- The program text is a finite map from multiples of 4 below 2^64, listed by rising address (20_memory.md R52). -/
abbrev ProgramText.wf (p : ProgramText) : Prop :=
  p.Pairwise (fun e f => e.1 < f.1) ∧ ∀ e ∈ p, e.1 % 4 = 0 ∧ e.1 < 2 ^ 64

/-- Storage holds the instruction bytes, in the run's byte order, of every word of Program that no store has
overwritten (20_memory.md R52, R53). -/
abbrev State.textMirrored (s : State) : Prop :=
  ∀ e ∈ s.program, e.1 ∉ s.overwritten → ∀ k ∈ List.range 4,
    s.mem.read (e.1 + k) = (layOut s.cfg.byteOrder 4 e.2.toNat).getD k 0

/-- The invariant of the machine: the parameters meet the spec's constraints, storage and program text are in
canonical form, `pc` is a multiple of 4 (10_state.md R24), only words of Program are marked overwritten, and the others
are mirrored in storage. -/
abbrev State.Inv (s : State) : Prop :=
  s.cfg.ok = true ∧ s.mem.wf ∧ ProgramText.wf s.program ∧ s.pc.toNat % 4 = 0 ∧
    (∀ a ∈ s.overwritten, a ∈ s.program.map (·.1)) ∧ s.textMirrored

/-- The access is aligned or the platform performs misaligned ones (20_memory.md R45), and the platform lets every
byte of it be accessed (R42). -/
abbrev State.allows (s : State) (ea : Doubleword) (n : Nat) (k : AccessKind) : Prop :=
  (s.cfg.alignPolicy = .perform ∨ ea.toNat % n = 0) ∧
    ∀ i ∈ List.range n, memValid s.cfg ((ea.toNat + i) % 2 ^ 64) k = true

/-- What must hold of the state for an instruction to complete (70_reset_and_hazards.md R141): floating point is
available, the form is valid, and the access is allowed. -/
abbrev State.ready (s : State) (i : Instr) : Prop :=
  s.fpAvail = true ∧ i.validForm = true ∧ s.allows (effAddr i s) (accessBytes i) (accessKind i)

/-- Storage after a store of the 8n-bit value `v` at `ea` (20_memory.md R41, R43): byte k of the access holds
`byte_k(v)` under BE and `byte_(n-1-k)(v)` under LE, and every address outside the access reads as before. -/
abbrev State.storedInto (s t : State) (ea : Doubleword) (n v : Nat) : Prop :=
  (∀ k, k < n → t.mem.read ((ea.toNat + k) % 2 ^ 64) =
    match s.cfg.byteOrder with
    | .be => BitVec.ofNat 8 (v / 256 ^ (n - 1 - k))
    | .le => BitVec.ofNat 8 (v / 256 ^ k)) ∧
  ∀ a, (∀ k, k < n → a ≠ (ea.toNat + k) % 2 ^ 64) → t.mem.read a = s.mem.read a

/-- The magnitude of a finite single, in units of 2^-149: exponent bias 127, 23 fraction bits (40_fp_load_shifted.md
R82). -/
def singleMagnitude (w : Word) : Nat :=
  let e := w.toNat / 2 ^ 23 % 2 ^ 8
  let f := w.toNat % 2 ^ 23
  if e = 0 then f else (2 ^ 23 + f) * 2 ^ (e - 1)

/-- The magnitude of a finite double, in units of 2^-1074: exponent bias 1023, 52 fraction bits
(40_fp_load_shifted.md R82). -/
def doubleMagnitude (d : Doubleword) : Nat :=
  let e := d.toNat / 2 ^ 52 % 2 ^ 11
  let f := d.toNat % 2 ^ 52
  if e = 0 then f else (2 ^ 52 + f) * 2 ^ (e - 1)

/-- What an outcome that is a next state becomes under a function of the state. -/
def mapNext (f : State → State) : Outcome → Outcome
  | .next s => .next (f s)
  | .fault r => .fault r
  | .refused r => .refused r

/-- The run of at most `k` steps of a program that ends at `endPC`: final, with no fetch made, as soon as `pc` is
there, else a fault, a refusal, or the state after `k` steps (70_reset_and_hazards.md R144). `endPC` comes with the
program; it is no part of the machine. -/
def runTo (endPC : Doubleword) : Nat → State → Outcome
  | 0, s => .next s
  | k + 1, s =>
    if s.pc = endPC then .next s
    else
      match step s with
      | .next t => runTo endPC k t
      | .fault f => .fault f
      | .refused r => .refused r

end Sys2Proof.Machine
end

