-- ==== Sys2Proof/Certificates/Slice0/Obligations.lean ====
section
/-! DEFINITION. The statements for the provers. Each docstring says which rule of the spec it formalises; where a
statement rests on a choice of the model's, it names the log entry. -/

open Sys2Proof Sys2Proof.Machine

/-! ## Encoding -/

/-- Decoding the word of a well-formed instruction gives the instruction, for every assignment of the encoding
parameters the spec allows (30_encoding.md R61 to R66). For an SH_BITS other than 2 the layout is the model's choice
(log entry 9). -/
def Obligations.DecodeInvertsEncode : Prop :=
  ∀ (cfg : Config) (i : Instr), cfg.ok = true → i.wellFormed cfg = true → decode cfg (encode cfg i) = .ok i

/-- A word that decodes is the word of the instruction it decodes to, which is well formed: no bit of a word is
ignored, the reserved bit 31 included (30_encoding.md R61, R62, R67). Layouts: log entry 9. -/
def Obligations.EncodeInvertsDecode : Prop :=
  ∀ (cfg : Config) (w : Word) (i : Instr), cfg.ok = true → decode cfg w = .ok i →
    encode cfg i = w ∧ i.wellFormed cfg = true

/-- The decoding procedure (30_encoding.md R66): a word with `w AND mask = match` is that store, a word with
`w[0:5] = PO_m`, `w[xo] = XO_m` and `w[31] = 0` is that load, any other word is illegal, and at most one row matches. -/
def Obligations.DecodeFollowsTheTable : Prop :=
  ∀ (cfg : Config) (w : Word), cfg.ok = true →
    (∀ op : StoreOp, w &&& op.mask = op.pattern → decode cfg w = .ok (op.instrOf w)) ∧
    (∀ op : LoadOp, LoadOp.isRowOf cfg w op = true → decode cfg w = .ok (op.instrOf cfg w)) ∧
    ((∀ op : StoreOp, w &&& op.mask ≠ op.pattern) → (∀ op : LoadOp, LoadOp.isRowOf cfg w op = false) →
      decode cfg w = .error (.illegalInstruction w)) ∧
    (∀ op op' : StoreOp, w &&& op.mask = op.pattern → w &&& op'.mask = op'.pattern → op = op') ∧
    (∀ op op' : LoadOp, LoadOp.isRowOf cfg w op = true → LoadOp.isRowOf cfg w op' = true → op = op') ∧
    (∀ (op : StoreOp) (op' : LoadOp), w &&& op.mask = op.pattern → LoadOp.isRowOf cfg w op' = false)

/-- An X-Form word with the reserved bit 31 set is IllegalInstruction, whatever instruction its other bits are
(30_encoding.md R67, the spec's decision D20). The premise names the X-Form instructions: all but the four D-Form
stores. -/
def Obligations.ReservedBitSetIsIllegal : Prop :=
  ∀ (cfg : Config) (i : Instr), cfg.ok = true → i.wellFormed cfg = true →
    (∀ frs d ra, i ≠ .stfs frs d ra ∧ i ≠ .stfsu frs d ra ∧ i ≠ .stfd frs d ra ∧ i ≠ .stfdu frs d ra) →
    decode cfg (encode cfg i ||| 1) = .error (.illegalInstruction (encode cfg i ||| 1))

/-- Words written out from the layouts and the opcode numbers of 30_encoding.md R61, R62 and R64; the load's opcode is
that of `Config.atReset`, the model's choice (log entry 8). -/
def Obligations.TableWordsDecode : Prop :=
  decode Config.atReset 0b11010000001000110000000000001000 = .ok (.stfs 1 8 3) ∧
  decode Config.atReset 0b11011100000010011111111111110000 = .ok (.stfdu 0 0xFFF0 9) ∧
  decode Config.atReset 0b01111100001000110010010110101110 = .ok (.stfdx 1 3 4) ∧
  decode Config.atReset 0b01111100101000110010011110101110 = .ok (.stfiwx 5 3 4) ∧
  decode Config.atReset 0b00000100001000110010010000000110 = .ok (.lfdsx 1 3 4 2)

/-! ## Reset -/

/-- After reset `pc` is ResetPC and every tag is true (10_state.md R31, 70_reset_and_hazards.md R140). -/
def Obligations.ResetStartsAtResetPcWithTagsTrue : Prop :=
  State.reset.pc = State.reset.cfg.resetPC ∧ ∀ r : Reg, State.reset.tagOf r = true

/-- The invariant holds at reset. The parameters at reset are the model's choice (log entries 4 to 8). -/
def Obligations.ResetMeetsTheInvariant : Prop := State.reset.Inv

/-! ## The step -/

/-- One step (10_state.md R32, 20_memory.md R52): where Program has a word at `pc` that may be fetched and is not
overwritten, and the word decodes, the step is the instruction it decodes to, run in that very state. -/
def Obligations.StepRunsTheDecodedInstruction : Prop :=
  ∀ (s : State) (w : Word) (i : Instr), lookup s.pc.toNat s.program = some w →
    (∀ k ∈ List.range 4, memValid s.cfg ((s.pc.toNat + k) % 2 ^ 64) .fetch = true) →
    s.pc.toNat ∉ s.overwritten → decode s.cfg w = .ok i → step s = exec i s

/-- A word placed where the next fetch reads is run by the next step, and the registers, tags, `pc` and availability
are those of the state it is placed in (the model's probe, log entry 11; 20_memory.md R52). -/
def Obligations.PlacedWordRunsNext : Prop :=
  ∀ (s : State) (w : Nat) (i : Instr), w < 2 ^ 32 → decode s.cfg (BitVec.ofNat 32 w) = .ok i →
    step (s.withFetchWord 32 w) = exec i (s.withFetchWord 32 w) ∧
    (s.withFetchWord 32 w).gpr = s.gpr ∧ (s.withFetchWord 32 w).fpr = s.fpr ∧
    (s.withFetchWord 32 w).spTag = s.spTag ∧ (s.withFetchWord 32 w).pc = s.pc ∧
    (s.withFetchWord 32 w).fpAvail = s.fpAvail

/-- A fetched word that does not decode is IllegalInstruction with the word and `pc`; so is, in particular, the word of
an X-Form instruction with the reserved bit 31 set (60_exceptions.md R125, the spec's decision D20). -/
def Obligations.UndecodableWordIsIllegalInstruction : Prop :=
  (∀ (s : State) (w : Word) (e : Reject), fetch s = .next w → decode s.cfg w = .error e →
    step s = .fault (.illegalInstruction w s.pc)) ∧
  ∀ (s : State) (i : Instr), s.cfg.ok = true → i.wellFormed s.cfg = true →
    (∀ frs d ra, i ≠ .stfs frs d ra ∧ i ≠ .stfsu frs d ra ∧ i ≠ .stfd frs d ra ∧ i ≠ .stfdu frs d ra) →
    fetch s = .next (encode s.cfg i ||| 1) → step s = .fault (.illegalInstruction (encode s.cfg i ||| 1) s.pc)

/-- Every step keeps the invariant: the parameters meet their constraints, storage and program text stay in canonical
form, `pc` stays a multiple of 4 (10_state.md R24), and every word of Program that no store has overwritten stays
mirrored in storage (20_memory.md R52, R53). -/
def Obligations.StepKeepsTheInvariant : Prop :=
  ∀ s t : State, s.Inv → step s = .next t → t.Inv

/-- Code that a store has overwritten, and no other, is refused at the next fetch, for good (20_memory.md R53, the spec's
decision D17). The marks are the model's own, a store of the same bytes included (log entry 12). A completed store leaves
marked exactly the words of Program that were marked or of which it touches one of the four bytes; a load leaves the
marks as they are; so no instruction removes one, and none changes Program. A step is refused exactly at a marked word
that may be fetched. -/
def Obligations.OverwrittenCodeIsRefused : Prop :=
  (∀ (i : Instr) (s t : State), exec i s = .next t → accessKind i = .store →
    t.program = s.program ∧ ∀ a : Nat, a ∈ t.overwritten ↔
      a ∈ s.program.map (·.1) ∧ (a ∈ s.overwritten ∨ ∃ k, k < accessBytes i ∧
        a ≤ ((effAddr i s).toNat + k) % 2 ^ 64 ∧ ((effAddr i s).toNat + k) % 2 ^ 64 < a + 4)) ∧
  (∀ (i : Instr) (s t : State), exec i s = .next t → accessKind i = .load →
    t.program = s.program ∧ t.overwritten = s.overwritten) ∧
  (∀ (i : Instr) (s t : State) (a : Nat), exec i s = .next t → a ∈ s.program.map (·.1) → a ∈ s.overwritten →
    a ∈ t.overwritten) ∧
  ∀ (s : State) (r : Refusal), step s = .refused r ↔
    r = .overwrittenCode s.pc ∧ (∃ w : Word, lookup s.pc.toNat s.program = some w) ∧
      (∀ k ∈ List.range 4, memValid s.cfg ((s.pc.toNat + k) % 2 ^ 64) .fetch = true) ∧
      s.pc.toNat ∈ s.overwritten

/-- The one fault reported is the first that applies, in the order of 60_exceptions.md R128: fetch storage, illegal,
FP unavailable, invalid form, alignment, data storage; and if none applies the step completes. The order is the spec's
decision D21 (log entry 19). Overwritten code is refused instead (20_memory.md R53, log entry 12), so the later clauses
are about code that is not; the last clause is 70_reset_and_hazards.md R141. -/
def Obligations.FirstApplicableFaultIsReported : Prop :=
  ∀ s : State, s.cfg.ok = true →
    (lookup s.pc.toNat s.program = none → step s = .fault (.storageFault s.pc .fetch)) ∧
    ∀ w : Word, lookup s.pc.toNat s.program = some w →
      ((∃ k ∈ List.range 4, memValid s.cfg ((s.pc.toNat + k) % 2 ^ 64) .fetch = false) →
        step s = .fault (.storageFault s.pc .fetch)) ∧
      ((∀ k ∈ List.range 4, memValid s.cfg ((s.pc.toNat + k) % 2 ^ 64) .fetch = true) →
        s.pc.toNat ∉ s.overwritten →
        (∀ e, decode s.cfg w = .error e → step s = .fault (.illegalInstruction w s.pc)) ∧
        ∀ i, decode s.cfg w = .ok i →
          (s.fpAvail = false → step s = .fault (.fpUnavailable s.pc)) ∧
          (s.fpAvail = true → updateReg i = some 0 → step s = .fault (.invalidForm w s.pc)) ∧
          (s.fpAvail = true → updateReg i ≠ some 0 → s.cfg.alignPolicy = .fault →
            (effAddr i s).toNat % accessBytes i ≠ 0 → step s = .fault (.alignmentFault (effAddr i s))) ∧
          (s.fpAvail = true → updateReg i ≠ some 0 →
            (s.cfg.alignPolicy = .perform ∨ (effAddr i s).toNat % accessBytes i = 0) →
            (∃ k ∈ List.range (accessBytes i),
              memValid s.cfg (((effAddr i s).toNat + k) % 2 ^ 64) (accessKind i) = false) →
            step s = .fault (.storageFault (effAddr i s) (accessKind i))) ∧
          (s.fpAvail = true → updateReg i ≠ some 0 →
            s.allows (effAddr i s) (accessBytes i) (accessKind i) → ∃ t, step s = .next t))

/-- The run of a program goes straight on: after k completed steps `pc` is 4k further, modulo 2^64, and Program, the
parameters and the availability of floating point are those of the start (10_state.md R25, R29, R30). -/
def Obligations.CompletedStepsGoStraightOn : Prop :=
  ∀ (k : Nat) (s t : State), Sys2Proof.core.run k s = .next t →
    t.pc = s.pc + BitVec.ofNat 64 (4 * k) ∧ t.program = s.program ∧ t.cfg = s.cfg ∧ t.fpAvail = s.fpAvail

/-- A run that ends without a fault or a refusal ended at EndPC, or took all the steps it was given; no step is taken
at EndPC (70_reset_and_hazards.md R144). -/
def Obligations.RunEndsAtEndPcOrAfterAllSteps : Prop :=
  ∀ (endPC : Doubleword) (k : Nat) (s t : State), runTo endPC k s = .next t →
    ∃ j, j ≤ k ∧ Sys2Proof.core.run j s = .next t ∧ (t.pc = endPC ∨ j = k) ∧
      ∀ n u, n < j → Sys2Proof.core.run n s = .next u → u.pc ≠ endPC

/-! ## Faults of the instructions -/

/-- With floating point unavailable every instruction raises FPUnavailable with `pc`, before its form is checked and
whatever the registers hold, so a step at a word that decodes does; the check comes after decoding, so a word that does
not decode is still IllegalInstruction (60_exceptions.md R123, the spec's decision D10). -/
def Obligations.FpUnavailableComesFirst : Prop :=
  (∀ (i : Instr) (s : State), s.fpAvail = false → exec i s = .fault (.fpUnavailable s.pc)) ∧
  (∀ (s : State) (w : Word) (i : Instr), s.fpAvail = false → fetch s = .next w → decode s.cfg w = .ok i →
    step s = .fault (.fpUnavailable s.pc)) ∧
  ∀ (s : State) (w : Word) (e : Reject), s.fpAvail = false → fetch s = .next w → decode s.cfg w = .error e →
    step s = .fault (.illegalInstruction w s.pc)

/-- InvalidForm is raised exactly by the six update forms with RA = 0, with the instruction's word and `pc`
(60_exceptions.md R124, the spec's decision D9; 30_encoding.md R68). That the word is `encode` of the instruction is the
model's choice of form (log entry 13). -/
def Obligations.InvalidFormExactlyUpdateWithRaZero : Prop :=
  ∀ (i : Instr) (s : State) (w : Word) (p : Doubleword),
    exec i s = .fault (.invalidForm w p) ↔
      s.fpAvail = true ∧ w = encode s.cfg i ∧ p = s.pc ∧
        ((∃ frt rb sh, i = .lfsusx frt 0 rb sh ∨ i = .lfdusx frt 0 rb sh) ∨
          (∃ frs d, i = .stfsu frs d 0 ∨ i = .stfdu frs d 0) ∨ ∃ frs rb, i = .stfsux frs 0 rb ∨ i = .stfdux frs 0 rb)

/-- AlignmentFault is raised exactly when the policy is Fault and EA is no multiple of the access size, 4 or 8, with
info EA, and never by fetch (60_exceptions.md R127, the spec's decision D7; 20_memory.md R45). -/
def Obligations.AlignmentFaultExactlyUnderPolicy : Prop :=
  (∀ i : Instr, accessBytes i = 4 ∨ accessBytes i = 8) ∧
  (∀ (i : Instr) (s : State) (a : Doubleword),
    exec i s = .fault (.alignmentFault a) ↔
      s.fpAvail = true ∧ updateReg i ≠ some 0 ∧ s.cfg.alignPolicy = .fault ∧
        (effAddr i s).toNat % accessBytes i ≠ 0 ∧ a = effAddr i s) ∧
  ∀ (s : State) (a : Doubleword), fetch s ≠ .fault (.alignmentFault a)

/-- StorageFault is raised by a data access exactly when some byte of it is not MemValid and nothing earlier applies,
with info EA and the kind; by a fetch with info `pc` (60_exceptions.md R126, the spec's decision D8). -/
def Obligations.StorageFaultExactlyWhereInvalid : Prop :=
  (∀ (i : Instr) (s : State) (a : Doubleword) (k : AccessKind),
    exec i s = .fault (.storageFault a k) ↔
      s.fpAvail = true ∧ updateReg i ≠ some 0 ∧
        (s.cfg.alignPolicy = .perform ∨ (effAddr i s).toNat % accessBytes i = 0) ∧
        (∃ j, j < accessBytes i ∧ memValid s.cfg (((effAddr i s).toNat + j) % 2 ^ 64) (accessKind i) = false) ∧
        a = effAddr i s ∧ k = accessKind i) ∧
  ∀ (s : State) (a : Doubleword) (k : AccessKind),
    fetch s = .fault (.storageFault a k) ↔
      a = s.pc ∧ k = .fetch ∧ (lookup s.pc.toNat s.program = none ∨
        ∃ j, j < 4 ∧ memValid s.cfg ((s.pc.toNat + j) % 2 ^ 64) .fetch = false)

/-- Under the conditions of 70_reset_and_hazards.md R141 (floating point available, a valid form, every byte MemValid,
aligned where the platform asks for it) each of the fifteen instructions completes. -/
def Obligations.EveryInstructionCompletesWhenReady : Prop :=
  ∀ (i : Instr) (s : State), s.ready i → ∃ t, exec i s = .next t

/-! ## What no instruction changes -/

/-- Every instruction that completes ends with `pc + 4` modulo 2^64, and none reads `pc` as data: run from another `pc`
it gives the same state but for `pc` (10_state.md R25, the spec's decision D12). -/
def Obligations.CompletedInstructionAdvancesPc : Prop :=
  (∀ (i : Instr) (s t : State), exec i s = .next t → t.pc.toNat = (s.pc.toNat + 4) % 2 ^ 64) ∧
  ∀ (i : Instr) (s t : State) (p : Doubleword), exec i s = .next t →
    exec i { s with pc := p } = .next { t with pc := p + 4 }

/-- No instruction changes Program, the parameters or the availability of floating point (10_state.md R29, R30). -/
def Obligations.ParametersAreFixed : Prop :=
  ∀ (i : Instr) (s t : State), exec i s = .next t →
    t.program = s.program ∧ t.cfg = s.cfg ∧ t.fpAvail = s.fpAvail

/-- The only general register an instruction writes is RA of an update form, which receives EA computed from the old
contents (10_state.md R21). -/
def Obligations.OnlyUpdateRaIsWritten : Prop :=
  ∀ (i : Instr) (s t : State), exec i s = .next t →
    (∀ r : Reg, updateReg i ≠ some r → t.readGpr r = s.readGpr r) ∧
    ∀ r : Reg, updateReg i = some r → t.readGpr r = effAddr i s

/-- The only floating-point register and tag an instruction writes are those of a load's target; the tag becomes true
for `lfssx` and `lfsusx` and false for the other four loads (10_state.md R23, R27). -/
def Obligations.OnlyLoadTargetAndItsTagAreWritten : Prop :=
  ∀ (i : Instr) (s t : State), exec i s = .next t →
    (∀ r : Reg, loadTarget i ≠ some r → t.readFpr r = s.readFpr r ∧ t.tagOf r = s.tagOf r) ∧
    ∀ r : Reg, loadTarget i = some r →
      (t.tagOf r = true ↔ ∃ frt ra rb sh, i = .lfssx frt ra rb sh ∨ i = .lfsusx frt ra rb sh)

/-- A load changes no byte of storage, and a store none outside the bytes at EA (40_fp_load_shifted.md R80,
41_fp_store.md R112). A load marks no code and draws nothing (the model's own fields, log entries 10 and 12). -/
def Obligations.OnlyTheStoredBytesChange : Prop :=
  ∀ (i : Instr) (s t : State), exec i s = .next t →
    (accessKind i = .load → t.mem = s.mem ∧ t.overwritten = s.overwritten ∧ t.draws = s.draws) ∧
    (accessKind i = .store → ∀ a : Nat, (∀ k, k < accessBytes i → a ≠ ((effAddr i s).toNat + k) % 2 ^ 64) →
      t.mem.read a = s.mem.read a)

/-! ## What an instruction depends on -/

/-- Only `stfiwx` reads a tag (10_state.md R26): any other instruction, run with other tags, does the same but for the
tags it leaves. -/
def Obligations.OnlyStfiwxReadsTags : Prop :=
  ∀ (i : Instr) (s : State) (v : Vector Bool 32), (∀ frs ra rb, i ≠ .stfiwx frs ra rb) →
    mapNext (fun t => { t with spTag := Vector.replicate 32 true }) (exec i { s with spTag := v }) =
      mapNext (fun t => { t with spTag := Vector.replicate 32 true }) (exec i s)

/-- A load reads no floating-point register (10_state.md R23): with other contents of the registers it does the same,
its target receives the same value, and the others stay what they were. -/
def Obligations.LoadsReadNoFloatingPointRegister : Prop :=
  ∀ (i : Instr) (s : State) (v : Vector Doubleword 32) (frt : Reg), loadTarget i = some frt →
    exec i { s with fpr := v } =
      mapNext (fun t => { t with fpr := v.set frt.val (t.readFpr frt) }) (exec i s)

/-- A load depends on storage only through the bytes of its access (20_memory.md R41, R49): with any storage that
agrees on those bytes it does the same, and leaves that storage alone. -/
def Obligations.LoadsReadOnlyTheirBytes : Prop :=
  ∀ (i : Instr) (s : State) (m : Memory), accessKind i = .load →
    (∀ k, k < accessBytes i → m.read (((effAddr i s).toNat + k) % 2 ^ 64) =
      s.mem.read (((effAddr i s).toNat + k) % 2 ^ 64)) →
    exec i { s with mem := m } = mapNext (fun t => { t with mem := m }) (exec i s)

/-! ## Operands -/

/-- The six shapes of effective address, as numbers modulo 2^64 (00_scope.md R13, R14, 40_fp_load_shifted.md R81,
41_fp_store.md R101): the index is multiplied by 2^(SH+1), the displacement is signed, and an RA field of 0 is a zero
base in the forms without update. -/
def Obligations.EffectiveAddressesInClosedForm : Prop :=
  ∀ (s : State) (ra rb : Reg) (sh : Shift) (d : BitVec 16),
    let base := if ra = 0 then 0 else (s.readGpr ra).toNat
    (eaShifted s ra rb sh).toNat = (base + (s.readGpr rb).toNat * 2 ^ (sh.val + 1)) % 2 ^ 64 ∧
    (eaShiftedUpdate s ra rb sh).toNat =
      ((s.readGpr ra).toNat + (s.readGpr rb).toNat * 2 ^ (sh.val + 1)) % 2 ^ 64 ∧
    ((eaDisp s d ra).toNat : Int) = ((base : Int) + d.toInt) % 2 ^ 64 ∧
    ((eaDispUpdate s d ra).toNat : Int) = (((s.readGpr ra).toNat : Int) + d.toInt) % 2 ^ 64 ∧
    (eaIndexed s ra rb).toNat = (base + (s.readGpr rb).toNat) % 2 ^ 64 ∧
    (eaIndexedUpdate s ra rb).toNat = ((s.readGpr ra).toNat + (s.readGpr rb).toNat) % 2 ^ 64

/-- What a load of 4 or 8 bytes assembles (20_memory.md R41, R43): byte k of the value, the most significant being byte
0, is the byte at (EA + k) mod 2^64 under BE and the byte at (EA + n-1-k) mod 2^64 under LE. -/
def Obligations.LoadedValueIsMadeOfTheBytes : Prop :=
  ∀ (s : State) (ea : Doubleword),
    (∀ k, k < 4 → BitVec.ofNat 8 ((s.loadWord ea).toNat / 256 ^ (3 - k)) =
      s.mem.read ((ea.toNat + (match s.cfg.byteOrder with | .be => k | .le => 3 - k)) % 2 ^ 64)) ∧
    ∀ k, k < 8 → BitVec.ofNat 8 ((s.loadDoubleword ea).toNat / 256 ^ (7 - k)) =
      s.mem.read ((ea.toNat + (match s.cfg.byteOrder with | .be => k | .le => 7 - k)) % 2 ^ 64)

/-! ## Conversions -/

/-- DOUBLE keeps the value (40_fp_load_shifted.md R82): for a finite word the result is the double of exactly the same
real number, with the same sign, normalized unless it is zero, and its low 29 bits are zero. -/
def Obligations.DoubleOfFiniteIsExact : Prop :=
  ∀ w : Word, w.toNat / 2 ^ 23 % 2 ^ 8 < 255 →
    doubleMagnitude (double w) = singleMagnitude w * 2 ^ 925 ∧
    (double w).toNat / 2 ^ 63 = w.toNat / 2 ^ 31 ∧
    (double w).toNat / 2 ^ 52 % 2 ^ 11 < 2047 ∧
    ((double w).toNat / 2 ^ 52 % 2 ^ 11 = 0 → (double w).toNat % 2 ^ 63 = 0) ∧
    (double w).toNat % 2 ^ 29 = 0

/-- DOUBLE of an infinity or a NaN (40_fp_load_shifted.md R82): the sign is kept, the exponent is 0x7FF and the
fraction is the word's with 29 zero bits, so a signalling NaN stays signalling. -/
def Obligations.DoubleKeepsInfinitiesAndNans : Prop :=
  ∀ w : Word, w.toNat / 2 ^ 23 % 2 ^ 8 = 255 →
    (double w).toNat = w.toNat / 2 ^ 31 * 2 ^ 63 + 0x7FF * 2 ^ 52 + w.toNat % 2 ^ 23 * 2 ^ 29

/-- SINGLE is undefined exactly for the non-zero values whose exponent field is below 874 (41_fp_store.md R102). -/
def Obligations.SingleUndefinedExactlyBelowDenormals : Prop :=
  ∀ d : Doubleword, single d = none ↔ d.toNat / 2 ^ 52 % 2 ^ 11 < 874 ∧ d.toNat % 2 ^ 63 ≠ 0

/-- SINGLE truncates (41_fp_store.md R102). For an exponent field of 897 to 1150 the result has the same sign, the
exponent rebased to the single bias and the top 23 fraction bits; above 1150 three exponent bits are lost, the top one
and the low seven being kept; for 874 to 896 it is the denormal whose magnitude is the value's, in units of 2^-149,
rounded down; a zero keeps its sign. -/
def Obligations.SingleTruncates : Prop :=
  ∀ d : Doubleword,
    (897 ≤ d.toNat / 2 ^ 52 % 2 ^ 11 → d.toNat / 2 ^ 52 % 2 ^ 11 ≤ 1150 →
      ∃ w : Word, single d = some w ∧ w.toNat / 2 ^ 31 = d.toNat / 2 ^ 63 ∧
        w.toNat / 2 ^ 23 % 2 ^ 8 = d.toNat / 2 ^ 52 % 2 ^ 11 - 896 ∧ w.toNat % 2 ^ 23 = d.toNat % 2 ^ 52 / 2 ^ 29) ∧
    (874 ≤ d.toNat / 2 ^ 52 % 2 ^ 11 → d.toNat / 2 ^ 52 % 2 ^ 11 ≤ 896 →
      ∃ w : Word, single d = some w ∧ w.toNat / 2 ^ 31 = d.toNat / 2 ^ 63 ∧
        w.toNat / 2 ^ 23 % 2 ^ 8 = 0 ∧ singleMagnitude w = doubleMagnitude d / 2 ^ 925) ∧
    (1150 < d.toNat / 2 ^ 52 % 2 ^ 11 →
      ∃ w : Word, single d = some w ∧ w.toNat / 2 ^ 31 = d.toNat / 2 ^ 63 ∧
        w.toNat / 2 ^ 23 % 2 ^ 8 = 2 ^ 7 + d.toNat / 2 ^ 52 % 2 ^ 7 ∧ w.toNat % 2 ^ 23 = d.toNat % 2 ^ 52 / 2 ^ 29) ∧
    (d.toNat % 2 ^ 63 = 0 → ∃ w : Word, single d = some w ∧ w.toNat = d.toNat / 2 ^ 63 * 2 ^ 31)

/-- `SINGLE(DOUBLE(w)) = w` for every word, NaNs and denormals included, so a converted word never falls in SINGLE's
undefined range (40_fp_load_shifted.md R90 (5)). -/
def Obligations.SingleInvertsDouble : Prop := ∀ w : Word, single (double w) = some w

/-! ## The loads: the result of each, and that it completes -/

/-- `lfssx` (40_fp_load_shifted.md R84). -/
def Obligations.LfssxLoadsSingleAsDouble : Prop :=
  ∀ (frt ra rb : Reg) (sh : Shift) (s : State), s.fpAvail = true → s.allows (eaShifted s ra rb sh) 4 .load →
    exec (.lfssx frt ra rb sh) s = .next { s with
      fpr := s.fpr.set frt.val (double (s.loadWord (eaShifted s ra rb sh)))
      spTag := s.spTag.set frt.val true
      pc := s.pc + 4 }

/-- `lfsusx`, RA not 0 (40_fp_load_shifted.md R85). -/
def Obligations.LfsusxLoadsSingleAndUpdates : Prop :=
  ∀ (frt ra rb : Reg) (sh : Shift) (s : State), s.fpAvail = true → ra ≠ 0 →
    s.allows (eaShiftedUpdate s ra rb sh) 4 .load →
    exec (.lfsusx frt ra rb sh) s = .next { s with
      fpr := s.fpr.set frt.val (double (s.loadWord (eaShiftedUpdate s ra rb sh)))
      spTag := s.spTag.set frt.val true
      gpr := s.gpr.set ra.val (eaShiftedUpdate s ra rb sh)
      pc := s.pc + 4 }

/-- `lfdsx` (40_fp_load_shifted.md R86). -/
def Obligations.LfdsxLoadsDoubleword : Prop :=
  ∀ (frt ra rb : Reg) (sh : Shift) (s : State), s.fpAvail = true → s.allows (eaShifted s ra rb sh) 8 .load →
    exec (.lfdsx frt ra rb sh) s = .next { s with
      fpr := s.fpr.set frt.val (s.loadDoubleword (eaShifted s ra rb sh))
      spTag := s.spTag.set frt.val false
      pc := s.pc + 4 }

/-- `lfdusx`, RA not 0 (40_fp_load_shifted.md R87). -/
def Obligations.LfdusxLoadsDoublewordAndUpdates : Prop :=
  ∀ (frt ra rb : Reg) (sh : Shift) (s : State), s.fpAvail = true → ra ≠ 0 →
    s.allows (eaShiftedUpdate s ra rb sh) 8 .load →
    exec (.lfdusx frt ra rb sh) s = .next { s with
      fpr := s.fpr.set frt.val (s.loadDoubleword (eaShiftedUpdate s ra rb sh))
      spTag := s.spTag.set frt.val false
      gpr := s.gpr.set ra.val (eaShiftedUpdate s ra rb sh)
      pc := s.pc + 4 }

/-- `lfiwasx` (40_fp_load_shifted.md R88): the low word is the word loaded, the upper 32 bits are copies of its bit 0,
the sign bit. -/
def Obligations.LfiwasxLoadsSignExtendedWord : Prop :=
  ∀ (frt ra rb : Reg) (sh : Shift) (s : State), s.fpAvail = true → s.allows (eaShifted s ra rb sh) 4 .load →
    ∃ v : Doubleword,
      exec (.lfiwasx frt ra rb sh) s = .next { s with
        fpr := s.fpr.set frt.val v, spTag := s.spTag.set frt.val false, pc := s.pc + 4 } ∧
      v.toNat % 2 ^ 32 = (s.loadWord (eaShifted s ra rb sh)).toNat ∧
      v.toNat / 2 ^ 32 = if (s.loadWord (eaShifted s ra rb sh)).toNat < 2 ^ 31 then 0 else 2 ^ 32 - 1

/-- `lfiwzsx` (40_fp_load_shifted.md R89): the low word is the word loaded, the upper 32 bits are 0. -/
def Obligations.LfiwzsxLoadsZeroExtendedWord : Prop :=
  ∀ (frt ra rb : Reg) (sh : Shift) (s : State), s.fpAvail = true → s.allows (eaShifted s ra rb sh) 4 .load →
    ∃ v : Doubleword,
      exec (.lfiwzsx frt ra rb sh) s = .next { s with
        fpr := s.fpr.set frt.val v, spTag := s.spTag.set frt.val false, pc := s.pc + 4 } ∧
      v.toNat = (s.loadWord (eaShifted s ra rb sh)).toNat

/-! ## The stores: the result of each, and that it completes

The stored word of `stfs`, `stfsx`, `stfsu`, `stfsux` is SINGLE of the register, or, where that is undefined, the free
value number `draws`, which is then counted (log entry 10). The statement holds for every value of `draws`. Which words
of Program a store marks as overwritten is `OverwrittenCodeIsRefused`. -/

/-- `stfs` (41_fp_store.md R103). -/
def Obligations.StfsStoresSingle : Prop :=
  ∀ (frs : Reg) (d : BitVec 16) (ra : Reg) (s : State), s.fpAvail = true → s.allows (eaDisp s d ra) 4 .store →
    ∃ t, exec (.stfs frs d ra) s = .next t ∧
      s.storedInto t (eaDisp s d ra) 4 ((single (s.readFpr frs)).getD (Config.freeWord s.draws)).toNat ∧
      t = { s with
        mem := t.mem, overwritten := t.overwritten, pc := s.pc + 4
        draws := if single (s.readFpr frs) = none then s.draws + 1 else s.draws }

/-- `stfsx` (41_fp_store.md R104). -/
def Obligations.StfsxStoresSingle : Prop :=
  ∀ (frs ra rb : Reg) (s : State), s.fpAvail = true → s.allows (eaIndexed s ra rb) 4 .store →
    ∃ t, exec (.stfsx frs ra rb) s = .next t ∧
      s.storedInto t (eaIndexed s ra rb) 4 ((single (s.readFpr frs)).getD (Config.freeWord s.draws)).toNat ∧
      t = { s with
        mem := t.mem, overwritten := t.overwritten, pc := s.pc + 4
        draws := if single (s.readFpr frs) = none then s.draws + 1 else s.draws }

/-- `stfsu`, RA not 0 (41_fp_store.md R105). -/
def Obligations.StfsuStoresSingleAndUpdates : Prop :=
  ∀ (frs : Reg) (d : BitVec 16) (ra : Reg) (s : State), s.fpAvail = true → ra ≠ 0 →
    s.allows (eaDispUpdate s d ra) 4 .store →
    ∃ t, exec (.stfsu frs d ra) s = .next t ∧
      s.storedInto t (eaDispUpdate s d ra) 4 ((single (s.readFpr frs)).getD (Config.freeWord s.draws)).toNat ∧
      t = { s with
        mem := t.mem, overwritten := t.overwritten, pc := s.pc + 4
        gpr := s.gpr.set ra.val (eaDispUpdate s d ra)
        draws := if single (s.readFpr frs) = none then s.draws + 1 else s.draws }

/-- `stfsux`, RA not 0 (41_fp_store.md R106). -/
def Obligations.StfsuxStoresSingleAndUpdates : Prop :=
  ∀ (frs ra rb : Reg) (s : State), s.fpAvail = true → ra ≠ 0 → s.allows (eaIndexedUpdate s ra rb) 4 .store →
    ∃ t, exec (.stfsux frs ra rb) s = .next t ∧
      s.storedInto t (eaIndexedUpdate s ra rb) 4 ((single (s.readFpr frs)).getD (Config.freeWord s.draws)).toNat ∧
      t = { s with
        mem := t.mem, overwritten := t.overwritten, pc := s.pc + 4
        gpr := s.gpr.set ra.val (eaIndexedUpdate s ra rb)
        draws := if single (s.readFpr frs) = none then s.draws + 1 else s.draws }

/-- `stfd` (41_fp_store.md R107). -/
def Obligations.StfdStoresDoubleword : Prop :=
  ∀ (frs : Reg) (d : BitVec 16) (ra : Reg) (s : State), s.fpAvail = true → s.allows (eaDisp s d ra) 8 .store →
    ∃ t, exec (.stfd frs d ra) s = .next t ∧ s.storedInto t (eaDisp s d ra) 8 (s.readFpr frs).toNat ∧
      t = { s with mem := t.mem, overwritten := t.overwritten, pc := s.pc + 4 }

/-- `stfdx` (41_fp_store.md R108). -/
def Obligations.StfdxStoresDoubleword : Prop :=
  ∀ (frs ra rb : Reg) (s : State), s.fpAvail = true → s.allows (eaIndexed s ra rb) 8 .store →
    ∃ t, exec (.stfdx frs ra rb) s = .next t ∧ s.storedInto t (eaIndexed s ra rb) 8 (s.readFpr frs).toNat ∧
      t = { s with mem := t.mem, overwritten := t.overwritten, pc := s.pc + 4 }

/-- `stfdu`, RA not 0 (41_fp_store.md R109). -/
def Obligations.StfduStoresDoublewordAndUpdates : Prop :=
  ∀ (frs : Reg) (d : BitVec 16) (ra : Reg) (s : State), s.fpAvail = true → ra ≠ 0 →
    s.allows (eaDispUpdate s d ra) 8 .store →
    ∃ t, exec (.stfdu frs d ra) s = .next t ∧ s.storedInto t (eaDispUpdate s d ra) 8 (s.readFpr frs).toNat ∧
      t = { s with
        mem := t.mem, overwritten := t.overwritten, pc := s.pc + 4
        gpr := s.gpr.set ra.val (eaDispUpdate s d ra) }

/-- `stfdux`, RA not 0 (41_fp_store.md R110). -/
def Obligations.StfduxStoresDoublewordAndUpdates : Prop :=
  ∀ (frs ra rb : Reg) (s : State), s.fpAvail = true → ra ≠ 0 → s.allows (eaIndexedUpdate s ra rb) 8 .store →
    ∃ t, exec (.stfdux frs ra rb) s = .next t ∧ s.storedInto t (eaIndexedUpdate s ra rb) 8 (s.readFpr frs).toNat ∧
      t = { s with
        mem := t.mem, overwritten := t.overwritten, pc := s.pc + 4
        gpr := s.gpr.set ra.val (eaIndexedUpdate s ra rb) }

/-- `stfiwx` (41_fp_store.md R111): exactly four bytes are written; the word is `FPR[FRS][32:63]` when the tag is false,
and the free value number `draws` when it is true (log entry 10). -/
def Obligations.StfiwxStoresLowWordOrDraw : Prop :=
  ∀ (frs ra rb : Reg) (s : State), s.fpAvail = true → s.allows (eaIndexed s ra rb) 4 .store →
    ∃ t, exec (.stfiwx frs ra rb) s = .next t ∧
      s.storedInto t (eaIndexed s ra rb) 4
        (if s.tagOf frs = true then (Config.freeWord s.draws).toNat else (s.readFpr frs).toNat % 2 ^ 32) ∧
      t = { s with
        mem := t.mem, overwritten := t.overwritten, pc := s.pc + 4
        draws := if s.tagOf frs = true then s.draws + 1 else s.draws }

/-! ## Loads and stores together -/

/-- A doubleword stored by `stfd` and loaded back by `lfdsx` from the same address is the register, bit for bit, in
both byte orders (41_fp_store.md R107, 20_memory.md R54). -/
def Obligations.DoublewordSurvivesStoreAndLoad : Prop :=
  ∀ (frs : Reg) (d : BitVec 16) (ra frt ra' rb : Reg) (sh : Shift) (s t u : State),
    exec (.stfd frs d ra) s = .next t → exec (.lfdsx frt ra' rb sh) t = .next u →
    eaShifted t ra' rb sh = eaDisp s d ra → u.readFpr frt = s.readFpr frs

/-- Mixed widths (20_memory.md R44): a word loaded by `lfiwzsx` from where `stfd` stored a doubleword is the most
significant half under BE and the least significant half under LE. -/
def Obligations.WordOfStoredDoubleword : Prop :=
  ∀ (frs : Reg) (d : BitVec 16) (ra frt ra' rb : Reg) (sh : Shift) (s t u : State),
    exec (.stfd frs d ra) s = .next t → exec (.lfiwzsx frt ra' rb sh) t = .next u →
    eaShifted t ra' rb sh = eaDisp s d ra →
    (u.readFpr frt).toNat = match s.cfg.byteOrder with
      | .be => (s.readFpr frs).toNat / 2 ^ 32
      | .le => (s.readFpr frs).toNat % 2 ^ 32

/-- A single loaded by `lfssx` and stored by `stfs` is copied bit for bit, NaN payloads and denormals included
(40_fp_load_shifted.md R90 (5)). -/
def Obligations.SingleIsCopiedBitForBit : Prop :=
  ∀ (fr ra rb ra' : Reg) (sh : Shift) (d : BitVec 16) (s t u : State),
    exec (.lfssx fr ra rb sh) s = .next t → exec (.stfs fr d ra') t = .next u →
    ∀ k, k < 4 → u.mem.read (((eaDisp t d ra').toNat + k) % 2 ^ 64) =
      s.mem.read (((eaShifted s ra rb sh).toNat + k) % 2 ^ 64)

/-- A word loaded by `lfiwzsx` or by `lfiwasx` and stored by `stfiwx` is copied bit for bit (41_fp_store.md R111). -/
def Obligations.IntegerWordIsCopiedBitForBit : Prop :=
  ∀ (i : Instr) (fr ra rb ra' rb' : Reg) (sh : Shift) (s t u : State),
    i = .lfiwzsx fr ra rb sh ∨ i = .lfiwasx fr ra rb sh →
    exec i s = .next t → exec (.stfiwx fr ra' rb') t = .next u →
    ∀ k, k < 4 → u.mem.read (((eaIndexed t ra' rb').toNat + k) % 2 ^ 64) =
      s.mem.read (((eaShifted s ra rb sh).toNat + k) % 2 ^ 64)

/-- An update load with RA not 0 does what the form without update does, and writes EA to RA besides
(40_fp_load_shifted.md R90 (2)). -/
def Obligations.UpdateLoadIsLoadAndUpdate : Prop :=
  ∀ (frt ra rb : Reg) (sh : Shift) (s : State), ra ≠ 0 →
    exec (.lfsusx frt ra rb sh) s =
      mapNext (fun t => t.writeGpr ra (eaShifted s ra rb sh)) (exec (.lfssx frt ra rb sh) s) ∧
    exec (.lfdusx frt ra rb sh) s =
      mapNext (fun t => t.writeGpr ra (eaShifted s ra rb sh)) (exec (.lfdsx frt ra rb sh) s)

/-- `lfssx`, `lfiwasx` and `lfiwzsx` with the same operands complete in the same states, read the same word at EA and
differ only in how it is widened and in the target's tag; the low words of the integer loads agree
(40_fp_load_shifted.md R90 (1), (4)). -/
def Obligations.WordLoadsDifferOnlyInWidening : Prop :=
  ∀ (frt ra rb : Reg) (sh : Shift) (s : State),
    ((∃ t, exec (.lfssx frt ra rb sh) s = .next t) ↔ ∃ a, exec (.lfiwasx frt ra rb sh) s = .next a) ∧
    ((∃ t, exec (.lfssx frt ra rb sh) s = .next t) ↔ ∃ z, exec (.lfiwzsx frt ra rb sh) s = .next z) ∧
    ∀ t a z : State, exec (.lfssx frt ra rb sh) s = .next t → exec (.lfiwasx frt ra rb sh) s = .next a →
      exec (.lfiwzsx frt ra rb sh) s = .next z →
      a.readFpr frt = (s.loadWord (eaShifted s ra rb sh)).signExtend 64 ∧
      t = { a with
        fpr := a.fpr.set frt.val (double (s.loadWord (eaShifted s ra rb sh)))
        spTag := a.spTag.set frt.val true } ∧
      z = { a with fpr := a.fpr.set frt.val ((s.loadWord (eaShifted s ra rb sh)).setWidth 64) } ∧
      (a.readFpr frt).toNat % 2 ^ 32 = (z.readFpr frt).toNat % 2 ^ 32
end

