-- ==== Sys2Proof/Laws/Bytes.lean ====
section
/-! SUPPORT. The laws of the byte order (20_memory.md R43): laying a value out and assembling it again. -/

namespace Sys2Proof

@[simp] theorem length_bytesOf (n v : Nat) : (bytesOf n v).length = n := by simp [bytesOf]

@[simp] theorem length_layOut (bo : ByteOrder) (n v : Nat) : (layOut bo n v).length = n := by
  cases bo <;> simp [layOut]

/-- `byte_k(v)`, the most significant byte being byte 0 (20_memory.md R43). -/
theorem getElem_bytesOf (n v k : Nat) (h : k < (bytesOf n v).length) :
    (bytesOf n v)[k] = BitVec.ofNat 8 (v / 256 ^ (n - 1 - k)) := by
  simp [bytesOf]

theorem bytesOf_succ (n v : Nat) : bytesOf (n + 1) v = bytesOf n (v / 256) ++ [BitVec.ofNat 8 v] := by
  rw [bytesOf, List.range_succ, List.map_append]
  congr 1
  · apply List.map_congr_left
    intro k hk
    have hk := List.mem_range.mp hk
    rw [show n + 1 - 1 - k = n - 1 - k + 1 by omega, pow_succ', Nat.div_div_eq_div_mul]
  · simp

theorem valueOf_append (bs : List Byte) (b : Byte) : valueOf (bs ++ [b]) = valueOf bs * 256 + b.toNat := by
  simp [valueOf]

theorem valueOf_bytesOf (n v : Nat) : valueOf (bytesOf n v) = v % 256 ^ n := by
  induction n generalizing v with
  | zero => simp [bytesOf, valueOf, Nat.mod_one]
  | succ n ih =>
    have h : v % (256 * 256 ^ n) = v % 256 + 256 * (v / 256 % 256 ^ n) := Nat.mod_mul
    rw [bytesOf_succ, valueOf_append, ih, BitVec.toNat_ofNat, pow_succ' 256 n, h]
    omega

/-- A value laid out in a byte order and assembled in the same one is the value. -/
theorem assemble_layOut (bo : ByteOrder) (n v : Nat) : assemble bo (layOut bo n v) = v % 256 ^ n := by
  cases bo <;> simp [assemble, layOut, valueOf_bytesOf]

theorem valueOf_lt (bs : List Byte) : valueOf bs < 256 ^ bs.length := by
  induction bs using List.reverseRecOn with
  | nil => simp [valueOf]
  | append_singleton bs b ih =>
    rw [valueOf_append, List.length_append, List.length_singleton, pow_succ]
    have := b.isLt
    omega

/-- What is assembled from n bytes is an 8n-bit value. -/
theorem assemble_lt (bo : ByteOrder) (bs : List Byte) : assemble bo bs < 256 ^ bs.length := by
  cases bo
  · exact valueOf_lt bs
  · simpa [assemble] using valueOf_lt bs.reverse

/-- Byte k of the value assembled from bytes is the k-th of them, most significant first (20_memory.md R43). -/
theorem ofNat_valueOf_div (bs : List Byte) (k : Nat) (h : k < bs.length) :
    BitVec.ofNat 8 (valueOf bs / 256 ^ (bs.length - 1 - k)) = bs[k] := by
  induction bs using List.reverseRecOn generalizing k with
  | nil => simp at h
  | append_singleton bs b ih =>
    rw [valueOf_append]
    simp only [List.length_append, List.length_singleton] at h ⊢
    have hb := b.isLt
    by_cases hk : k = bs.length
    · subst hk
      apply BitVec.eq_of_toNat_eq
      simp
      omega
    · have hk' : k < bs.length := by omega
      rw [List.getElem_append_left hk', ← ih k hk']
      rw [show bs.length + 1 - 1 - k = bs.length - 1 - k + 1 by omega, pow_succ', ← Nat.div_div_eq_div_mul]
      congr 2
      omega

/-- Bytes assembled to a value in a byte order and laid out in the same one are the bytes. -/
theorem layOut_assemble (bo : ByteOrder) (bs : List Byte) : layOut bo bs.length (assemble bo bs) = bs := by
  have h : ∀ bs : List Byte, bytesOf bs.length (valueOf bs) = bs := fun bs =>
    List.ext_getElem (by simp) fun k h1 h2 => by rw [getElem_bytesOf, ofNat_valueOf_div _ _ h2]
  cases bo
  · exact h bs
  · have := h bs.reverse
    simp only [List.length_reverse] at this
    simp only [layOut, assemble, this, List.reverse_reverse]

end Sys2Proof
end

