-- ==== Sys2Proof/Laws/Convert.lean ====
section
/-! SUPPORT. The two conversions in closed form, by the cases of their operand: the loops of 40_fp_load_shifted.md R82
and 41_fp_store.md R102 are shifts, and each branch is a sum of fields. -/

namespace Sys2Proof.Machine

/-- The loop of DOUBLE, given enough turns, shifts `frac` left until its bit 0 is one, once for each step of `exp`. -/
theorem normalize_eq (fuel frac : Nat) (exp : Int) (h0 : 2 ^ 52 ≤ frac * 2 ^ fuel) (h1 : frac < 2 ^ 53) :
    ∃ k, k ≤ fuel ∧ normalize fuel frac exp = (frac * 2 ^ k, exp - k) ∧ 2 ^ 52 ≤ frac * 2 ^ k ∧
      frac * 2 ^ k < 2 ^ 53 := by
  induction fuel generalizing frac exp with
  | zero => exact ⟨0, by simp, by simp [normalize], by simpa using h0, by simpa using h1⟩
  | succ fuel ih =>
    by_cases hz : slice 53 0 0 frac = 0
    · have hlt : frac < 2 ^ 52 := by simp [slice] at hz; omega
      have hs : slice 53 1 52 frac * 2 = frac * 2 := by simp [slice]; omega
      obtain ⟨k, hk, he, hl, hu⟩ := ih (frac * 2) (exp - 1) (by rw [mul_assoc, ← pow_succ']; exact h0) (by omega)
      have e : frac * 2 ^ (k + 1) = frac * 2 * 2 ^ k := by rw [pow_succ', mul_assoc]
      refine ⟨k + 1, by omega, ?_, by rw [e]; exact hl, by rw [e]; exact hu⟩
      rw [normalize, if_pos hz, hs, he, e]
      simp
      ring
    · refine ⟨0, by omega, by simp [normalize, hz], ?_, by simpa using h1⟩
      simp [slice] at hz ⊢
      omega

/-- The loop of SINGLE, given enough turns, shifts `frac` right by as many places as `exp` lies below -126. -/
theorem denormalize_eq (fuel frac : Nat) (exp : Int) (h : -126 ≤ exp + fuel) :
    denormalize fuel frac exp = frac / 2 ^ (-126 - exp).toNat := by
  induction fuel generalizing frac exp with
  | zero =>
    simp at h
    rw [denormalize, show (-126 - exp).toNat = 0 by omega]
    simp
  | succ fuel ih =>
    by_cases hz : exp < -126
    · rw [denormalize, if_pos hz, ih _ _ (by push_cast at h; omega), Nat.div_div_eq_div_mul, ← pow_succ']
      congr 2
      omega
    · rw [denormalize, if_neg hz, show (-126 - exp).toNat = 0 by omega]
      simp

/-! ## DOUBLE -/

theorem double_of_normal (w : Word) (h0 : 0 < w.toNat / 2 ^ 23 % 2 ^ 8) (h1 : w.toNat / 2 ^ 23 % 2 ^ 8 < 255) :
    (double w).toNat = w.toNat / 2 ^ 31 * 2 ^ 63 + (w.toNat / 2 ^ 23 % 2 ^ 8 + 896) * 2 ^ 52 +
      w.toNat % 2 ^ 23 * 2 ^ 29 := by
  have hw := w.isLt
  have e1 : slice 32 1 8 w.toNat = w.toNat / 2 ^ 23 % 2 ^ 8 := by simp [slice]
  rw [double, e1, if_pos ⟨h0, h1⟩, spread, BitVec.toNat_ofNat]
  simp only [slice]
  norm_num
  split_ifs <;> omega

theorem double_of_zero (w : Word) (h : w.toNat % 2 ^ 31 = 0) : (double w).toNat = w.toNat / 2 ^ 31 * 2 ^ 63 := by
  have hw := w.isLt
  have e1 : slice 32 1 8 w.toNat = w.toNat / 2 ^ 23 % 2 ^ 8 := by simp [slice]
  have e9 : slice 32 9 31 w.toNat = w.toNat % 2 ^ 23 := by simp [slice]
  rw [double, e1, e9, if_neg (by omega), if_neg (by omega), spread, BitVec.toNat_ofNat]
  simp [slice]
  split_ifs <;> omega

/-- A denormalized word becomes normalized: its fraction is shifted left by the k places that bring its first one bit
to weight 2^52, and the exponent field is `897 - k`. -/
theorem double_of_denormal (w : Word) (he : w.toNat / 2 ^ 23 % 2 ^ 8 = 0) (hf : w.toNat % 2 ^ 23 ≠ 0) :
    ∃ k, 1 ≤ k ∧ k ≤ 23 ∧ 2 ^ 52 ≤ w.toNat % 2 ^ 23 * 2 ^ (29 + k) ∧ w.toNat % 2 ^ 23 * 2 ^ (29 + k) < 2 ^ 53 ∧
      (double w).toNat = w.toNat / 2 ^ 31 * 2 ^ 63 + (897 - k) * 2 ^ 52 +
        (w.toNat % 2 ^ 23 * 2 ^ (29 + k) - 2 ^ 52) := by
  have hw := w.isLt
  have e1 : slice 32 1 8 w.toNat = w.toNat / 2 ^ 23 % 2 ^ 8 := by simp [slice]
  have e9 : slice 32 9 31 w.toNat = w.toNat % 2 ^ 23 := by simp [slice]
  have e0 : slice 32 0 0 w.toNat = w.toNat / 2 ^ 31 := by simp [slice]; omega
  obtain ⟨k, hk, hn, hl, hu⟩ := normalize_eq 53 (w.toNat % 2 ^ 23 * 2 ^ 29) (-126) (by omega) (by omega)
  rw [mul_assoc, ← pow_add] at hl hu
  have hk1 : 1 ≤ k := by
    by_contra hc
    obtain rfl : k = 0 := by omega
    omega
  have hk2 : k ≤ 23 := by
    by_contra hc
    have h2 : 2 ^ 53 ≤ 2 ^ (29 + k) := Nat.pow_le_pow_right (by norm_num) (by omega)
    have h3 : 1 * 2 ^ (29 + k) ≤ w.toNat % 2 ^ 23 * 2 ^ (29 + k) := Nat.mul_le_mul_right _ (by omega)
    omega
  refine ⟨k, hk1, hk2, hl, hu, ?_⟩
  rw [double, if_neg (by omega), if_pos (by omega), doubleDenormal]
  simp only [e9, e0, hn]
  rw [mul_assoc, ← pow_add]
  generalize w.toNat % 2 ^ 23 * 2 ^ (29 + k) = F at *
  have e2 : (-126 - (k : Int) + 1023).toNat = 897 - k := by omega
  have e3 : slice 53 1 52 F = F - 2 ^ 52 := by simp [slice]; omega
  rw [e2, e3, BitVec.toNat_ofNat]
  omega

/-! ## SINGLE -/

/-- The first branch of SINGLE: `d[0:1]` and `d[5:34]`. -/
theorem single_of_select (d : Doubleword) (h : 896 < d.toNat / 2 ^ 52 % 2 ^ 11 ∨ d.toNat % 2 ^ 63 = 0) :
    ∃ w : Word, single d = some w ∧ w.toNat = d.toNat / 2 ^ 62 * 2 ^ 30 + d.toNat / 2 ^ 29 % 2 ^ 30 := by
  have hd := d.isLt
  have e1 : slice 64 1 11 d.toNat = d.toNat / 2 ^ 52 % 2 ^ 11 := by simp [slice]
  have e2 : slice 64 1 63 d.toNat = d.toNat % 2 ^ 63 := by simp [slice]
  refine ⟨_, by rw [single, e1, e2, if_pos h], ?_⟩
  rw [BitVec.toNat_ofNat]
  simp [slice]
  omega

/-- The second branch of SINGLE: the significand shifted right by `897 - exponent field` places, and its low 29 bits
dropped. -/
theorem single_of_denormal (d : Doubleword) (h0 : 874 ≤ d.toNat / 2 ^ 52 % 2 ^ 11)
    (h1 : d.toNat / 2 ^ 52 % 2 ^ 11 ≤ 896) :
    ∃ w : Word, single d = some w ∧
      w.toNat = d.toNat / 2 ^ 63 * 2 ^ 31 +
        (2 ^ 52 + d.toNat % 2 ^ 52) / 2 ^ (897 - d.toNat / 2 ^ 52 % 2 ^ 11) / 2 ^ 29 := by
  have hd := d.isLt
  have e1 : slice 64 1 11 d.toNat = d.toNat / 2 ^ 52 % 2 ^ 11 := by simp [slice]
  have e2 : slice 64 1 63 d.toNat = d.toNat % 2 ^ 63 := by simp [slice]
  have e3 : slice 64 12 63 d.toNat = d.toNat % 2 ^ 52 := by simp [slice]
  have e4 : slice 64 0 0 d.toNat = d.toNat / 2 ^ 63 := by simp [slice]; omega
  refine ⟨_, by rw [single, e1, e2, if_neg (by omega), if_pos ⟨h0, h1⟩], ?_⟩
  have hk : (-126 - (((d.toNat / 2 ^ 52 % 2 ^ 11 : Nat) : Int) - 1023)).toNat =
      897 - d.toNat / 2 ^ 52 % 2 ^ 11 := by omega
  rw [singleDenormal, e1, e3, e4, denormalize_eq _ _ _ (by omega), hk]
  have hb : (2 ^ 52 + d.toNat % 2 ^ 52) / 2 ^ (897 - d.toNat / 2 ^ 52 % 2 ^ 11) < 2 ^ 52 := by
    have h2 : (2 ^ 52 + d.toNat % 2 ^ 52) / 2 ^ (897 - d.toNat / 2 ^ 52 % 2 ^ 11) ≤
        (2 ^ 52 + d.toNat % 2 ^ 52) / 2 ^ 1 :=
      Nat.div_le_div_left (Nat.pow_le_pow_right (by norm_num) (by omega)) (by norm_num)
    omega
  generalize (2 ^ 52 + d.toNat % 2 ^ 52) / 2 ^ (897 - d.toNat / 2 ^ 52 % 2 ^ 11) = F at *
  simp [slice]
  omega

end Sys2Proof.Machine
end

