-- ==== Sys2Proof/Laws/Decode.lean ====
section
/-! SUPPORT. The rows of the opcode table, the two layouts of the shifted loads and the constraints on the parameters
(30_encoding.md R61 to R66), said with division and remainder, so that statements about words are linear arithmetic. -/

namespace Sys2Proof

/-! ## The store rows -/

/-- The mask of the D-Form rows keeps PO. -/
theorem and_maskD_eq_iff (w p : Word) : w &&& 0xFC000000#32 = p ↔ w.toNat / 2 ^ 26 * 2 ^ 26 = p.toNat := by
  have h : (w &&& 0xFC000000#32).toNat = w.toNat / 2 ^ 26 * 2 ^ 26 := by
    have e : w &&& 0xFC000000#32 = (w >>> 26) <<< 26 := by
      ext i hi
      have : i < 32 := hi
      interval_cases i <;> simp
    rw [e]
    simp [Nat.shiftRight_eq_div_pow, Nat.shiftLeft_eq]
    have := w.isLt
    omega
  rw [← h, BitVec.toNat_inj]

/-- The mask of the X-Form rows keeps PO, XO and bit 31. -/
theorem and_maskX_eq_iff (w p : Word) :
    w &&& 0xFC0007FF#32 = p ↔ w.toNat / 2 ^ 26 * 2 ^ 26 + w.toNat % 2 ^ 11 = p.toNat := by
  have h : (w &&& 0xFC0007FF#32).toNat = w.toNat / 2 ^ 26 * 2 ^ 26 + w.toNat % 2 ^ 11 := by
    have e : w &&& 0xFC0007FF#32 = ((w >>> 26) <<< 26) + (w <<< 21) >>> 21 := by
      have e2 : ((w >>> 26) <<< 26) + (w <<< 21) >>> 21 = ((w >>> 26) <<< 26) ||| (w <<< 21) >>> 21 := by
        apply BitVec.add_eq_or_of_and_eq_zero
        ext i hi
        have : i < 32 := hi
        interval_cases i <;> simp
      rw [e2]
      ext i hi
      have : i < 32 := hi
      interval_cases i <;> simp
    rw [e]
    simp [Nat.shiftRight_eq_div_pow, Nat.shiftLeft_eq]
    have := w.isLt
    omega
  rw [← h, BitVec.toNat_inj]

/-- When a word is the instruction of a store row (30_encoding.md R64). -/
theorem storeRow_iff (op : StoreOp) (w : Word) :
    w &&& op.mask = op.pattern ↔ match op with
      | .stfs => w.toNat / 2 ^ 26 = 52
      | .stfsu => w.toNat / 2 ^ 26 = 53
      | .stfd => w.toNat / 2 ^ 26 = 54
      | .stfdu => w.toNat / 2 ^ 26 = 55
      | .stfsx => w.toNat / 2 ^ 26 = 31 ∧ w.toNat % 2 ^ 11 = 663 * 2
      | .stfsux => w.toNat / 2 ^ 26 = 31 ∧ w.toNat % 2 ^ 11 = 695 * 2
      | .stfdx => w.toNat / 2 ^ 26 = 31 ∧ w.toNat % 2 ^ 11 = 727 * 2
      | .stfdux => w.toNat / 2 ^ 26 = 31 ∧ w.toNat % 2 ^ 11 = 759 * 2
      | .stfiwx => w.toNat / 2 ^ 26 = 31 ∧ w.toNat % 2 ^ 11 = 983 * 2 := by
  have := w.isLt
  cases op
  case stfs => exact (and_maskD_eq_iff w 0xD0000000#32).trans (by simp only [BitVec.toNat_ofNat]; omega)
  case stfsu => exact (and_maskD_eq_iff w 0xD4000000#32).trans (by simp only [BitVec.toNat_ofNat]; omega)
  case stfd => exact (and_maskD_eq_iff w 0xD8000000#32).trans (by simp only [BitVec.toNat_ofNat]; omega)
  case stfdu => exact (and_maskD_eq_iff w 0xDC000000#32).trans (by simp only [BitVec.toNat_ofNat]; omega)
  case stfsx => exact (and_maskX_eq_iff w 0x7C00052E#32).trans (by simp only [BitVec.toNat_ofNat]; omega)
  case stfsux => exact (and_maskX_eq_iff w 0x7C00056E#32).trans (by simp only [BitVec.toNat_ofNat]; omega)
  case stfdx => exact (and_maskX_eq_iff w 0x7C0005AE#32).trans (by simp only [BitVec.toNat_ofNat]; omega)
  case stfdux => exact (and_maskX_eq_iff w 0x7C0005EE#32).trans (by simp only [BitVec.toNat_ofNat]; omega)
  case stfiwx => exact (and_maskX_eq_iff w 0x7C0007AE#32).trans (by simp only [BitVec.toNat_ofNat]; omega)

/-! ## The layouts of the shifted loads -/

/-- SH takes n of the ten bits 21:30 and XO the others, SH first or XO first. -/
theorem layout_cases {cfg : Config} (h : cfg.layoutOk = true) :
    ∃ n, 1 ≤ n ∧ n ≤ 5 ∧ cfg.shBits = n ∧ cfg.xoField.width = 10 - n ∧
      ((cfg.shField = ⟨21, 20 + n⟩ ∧ cfg.xoField = ⟨21 + n, 30⟩) ∨
        (cfg.xoField = ⟨21, 30 - n⟩ ∧ cfg.shField = ⟨31 - n, 30⟩)) := by
  simp only [Config.layoutOk, Bool.and_eq_true, Bool.or_eq_true, decide_eq_true_eq] at h
  simp only [Config.shBits, Field.width] at h
  obtain ⟨⟨h1, h2⟩, h3⟩ := h
  refine ⟨_, h1, h2, rfl, ?_, ?_⟩
  · simp only [Field.width]
    omega
  · rcases hs : cfg.shField with ⟨a, b⟩
    rcases hx : cfg.xoField with ⟨c, d⟩
    rw [hs, hx] at h3
    rw [hs] at h1 h2
    simp only at h1 h2 h3
    simp only [Field.mk.injEq]
    omega

/-- The SH and XO fields of a word make up its bits 21:30, and are in range. -/
theorem plainXo_wordField {cfg : Config} (h : cfg.layoutOk = true) (w : Word) :
    cfg.plainXo (wordField w cfg.shField) (wordField w cfg.xoField) = w.toNat / 2 % 2 ^ 10 ∧
      wordField w cfg.shField < 2 ^ cfg.shBits ∧ wordField w cfg.xoField < 2 ^ cfg.xoField.width := by
  obtain ⟨n, h1, h2, hb, hx, hl⟩ := layout_cases h
  rw [hb, hx]
  have := w.isLt
  interval_cases n <;> rcases hl with ⟨a, b⟩ | ⟨a, b⟩ <;>
    simp only [Config.plainXo, Field.place, wordField, slice, a, b] <;> norm_num <;> omega

/-- SH and XO placed in their fields lie in bits 21:30. -/
theorem place_lt {cfg : Config} (h : cfg.layoutOk = true) (sh xo : Nat) (hs : sh < 2 ^ cfg.shBits)
    (hx : xo < 2 ^ cfg.xoField.width) :
    cfg.shField.place sh + cfg.xoField.place xo < 2 ^ 11 ∧
      (cfg.shField.place sh + cfg.xoField.place xo) % 2 = 0 := by
  obtain ⟨n, h1, h2, hb, hxw, hl⟩ := layout_cases h
  rw [hb] at hs
  rw [hxw] at hx
  interval_cases n <;> rcases hl with ⟨a, b⟩ | ⟨a, b⟩ <;>
    simp only [Field.place, a, b] <;> norm_num at hs hx ⊢ <;> omega

/-- SH and XO are read back from the fields they were placed in. -/
theorem slice_place {cfg : Config} (h : cfg.layoutOk = true) (v sh xo : Nat) (hs : sh < 2 ^ cfg.shBits)
    (hx : xo < 2 ^ cfg.xoField.width) (hv : v % 2 ^ 11 = cfg.shField.place sh + cfg.xoField.place xo) :
    slice 32 cfg.shField.first cfg.shField.last v = sh ∧
      slice 32 cfg.xoField.first cfg.xoField.last v = xo := by
  obtain ⟨n, h1, h2, hb, hxw, hl⟩ := layout_cases h
  rw [hb] at hs
  rw [hxw] at hx
  interval_cases n <;> rcases hl with ⟨a, b⟩ | ⟨a, b⟩ <;>
    simp only [Field.place, slice, a, b] at hv ⊢ <;> norm_num at hs hx hv ⊢ <;> omega

/-! ## The constraints on the parameters -/

/-- What `Config.ok` says: a layout, six different opcode pairs, and each pair fit for its fields and no store's. -/
theorem ok_parts {cfg : Config} (h : cfg.ok = true) :
    cfg.layoutOk = true ∧ (∀ a b : LoadOp, cfg.opcode a = cfg.opcode b → a = b) ∧
      ∀ op, cfg.opcodeOk op = true := by
  simp only [Config.ok, Config.opcodesOk, Bool.and_eq_true, decide_eq_true_eq, List.all_eq_true] at h
  obtain ⟨⟨h1, h2, h3⟩, _⟩ := h
  refine ⟨h1, ?_, fun op => h3 op (by cases op <;> simp [LoadOp.all])⟩
  simp only [LoadOp.all, List.pairwise_cons, List.mem_cons, List.not_mem_nil] at h2
  simp at h2
  intro a b hab
  cases a <;> cases b <;> first | rfl | (exfalso; simp_all)

theorem opcodeOk_parts {cfg : Config} {op : LoadOp} (h : cfg.opcodeOk op = true) :
    (cfg.opcode op).xo < 2 ^ cfg.xoField.width ∧ (cfg.opcode op).po.toNat ∉ [52, 53, 54, 55] ∧
      ((cfg.opcode op).po.toNat = 31 →
        ∀ sh < 2 ^ cfg.shBits, cfg.plainXo sh (cfg.opcode op).xo ∉ storeXos) := by
  simp only [Config.opcodeOk, Bool.and_eq_true, Bool.or_eq_true, decide_eq_true_eq, List.all_eq_true, List.mem_range,
    Bool.not_eq_true', List.contains_eq_mem, decide_eq_false_iff_not] at h
  exact ⟨h.1.1, h.1.2, fun e => h.2.resolve_left fun c => c e⟩

/-- When a word is the instruction of a load row (30_encoding.md R66). -/
theorem loadRow_iff {cfg : Config} {op : LoadOp} {w : Word} :
    LoadOp.isRowOf cfg w op = true ↔
      w.toNat / 2 ^ 26 = (cfg.opcode op).po.toNat ∧ wordField w cfg.xoField = (cfg.opcode op).xo ∧
        w.toNat % 2 = 0 := by
  have := w.isLt
  have e1 : wordField w ⟨0, 5⟩ = w.toNat / 2 ^ 26 := by
    simp only [wordField, slice]
    norm_num
    omega
  have e2 : wordField w ⟨31, 31⟩ = w.toNat % 2 := by
    simp only [wordField, slice]
    norm_num
  simp only [LoadOp.isRowOf, Bool.and_eq_true, beq_iff_eq, e1, e2]
  tauto

/-! ## Decoding and encoding -/

/-- What a decoded word was: the word of a store row, the word of a load row, or no instruction. -/
theorem decode_cases (cfg : Config) (w : Word) :
    (∃ op : StoreOp, w &&& op.mask = op.pattern ∧ decode cfg w = .ok (op.instrOf w)) ∨
      (∃ op : LoadOp, LoadOp.isRowOf cfg w op = true ∧ decode cfg w = .ok (op.instrOf cfg w)) ∨
      decode cfg w = .error (.illegalInstruction w) := by
  unfold decode
  cases hf : StoreOp.all.find? (fun op => op.isRowOf w) with
  | some o => exact .inl ⟨o, by simpa [StoreOp.isRowOf] using List.find?_some hf, rfl⟩
  | none =>
    cases hg : LoadOp.all.find? (LoadOp.isRowOf cfg w) with
    | some o => exact .inr (.inl ⟨o, List.find?_some hg, rfl⟩)
    | none => exact .inr (.inr rfl)

theorem encodeD_lt {po : Nat} (frs : Reg) (d : BitVec 16) (ra : Reg) (h : po < 64) :
    encodeD po frs d ra < 2 ^ 32 := by
  have := frs.isLt
  have := ra.isLt
  have := d.isLt
  unfold encodeD
  omega

theorem encodeX_lt {po xo : Nat} (frs ra rb : Reg) (h : po < 64) (h2 : xo < 1024) :
    encodeX po xo frs ra rb < 2 ^ 32 := by
  have := frs.isLt
  have := ra.isLt
  have := rb.isLt
  unfold encodeX
  omega

/-- The word of a shifted load is below 2^32, its PO is the parameter, and SH and XO fill its low bits. -/
theorem encodeShifted_parts {cfg : Config} (hc : cfg.ok = true) (op : LoadOp) (frt ra rb : Reg) (sh : Shift)
    (hs : sh.val < 2 ^ cfg.shBits) :
    encodeShifted cfg op frt ra rb sh < 2 ^ 32 ∧
      encodeShifted cfg op frt ra rb sh / 2 ^ 26 = (cfg.opcode op).po.toNat ∧
      encodeShifted cfg op frt ra rb sh % 2 ^ 11 =
        cfg.shField.place sh.val + cfg.xoField.place (cfg.opcode op).xo := by
  obtain ⟨h1, _, h3⟩ := ok_parts hc
  obtain ⟨hx, _, _⟩ := opcodeOk_parts (h3 op)
  obtain ⟨b1, b2⟩ := place_lt h1 _ _ hs hx
  unfold encodeShifted
  generalize cfg.shField.place sh.val = A at *
  generalize cfg.xoField.place (cfg.opcode op).xo = B at *
  have := (cfg.opcode op).po.isLt
  have := frt.isLt
  have := ra.isLt
  have := rb.isLt
  omega

end Sys2Proof
end

