-- ==== Sys2Proof/Laws/Memory.lean ====
section
/-! SUPPORT. The laws of storage: reading after writing, for one byte and for the bytes of an access, and that every
operation keeps the canonical form. None of the reading laws needs the canonical form. -/

namespace Sys2Proof.Machine

section Maps

variable {α : Type}

theorem lookup_erase_self (k : Nat) (l : List (Nat × α)) : lookup k (erase k l) = none := by
  induction l with
  | nil => rfl
  | cons e l ih =>
    by_cases h : e.1 = k
    · simpa [erase, h] using ih
    · simpa [erase, lookup, h] using ih

theorem lookup_erase_other (k j : Nat) (l : List (Nat × α)) (h : j ≠ k) : lookup j (erase k l) = lookup j l := by
  induction l with
  | nil => rfl
  | cons e l ih =>
    by_cases hk : e.1 = k
    · have hj : e.1 ≠ j := fun hj => h (hj ▸ hk)
      simpa [erase, hk, lookup, hj, Ne.symm h] using ih
    · by_cases hj : e.1 = j
      · simp [erase, lookup, hj, h]
      · simpa [erase, hk, lookup, hj] using ih

theorem lookup_insertSorted_other (e : Nat × α) (l : List (Nat × α)) (j : Nat) (h : e.1 ≠ j) :
    lookup j (insertSorted e l) = lookup j l := by
  induction l with
  | nil => simp [insertSorted, lookup, h]
  | cons f l ih =>
    by_cases hlt : e.1 < f.1
    · simp [insertSorted, hlt, lookup, h]
    · simp only [insertSorted, hlt, if_false, lookup, ih]

theorem lookup_insertSorted_self (e : Nat × α) (l : List (Nat × α)) (h : lookup e.1 l = none) :
    lookup e.1 (insertSorted e l) = some e.2 := by
  induction l with
  | nil => simp [insertSorted, lookup]
  | cons f l ih =>
    by_cases hf : f.1 = e.1
    · simp [lookup, hf] at h
    · by_cases hlt : e.1 < f.1
      · simp [insertSorted, hlt, lookup]
      · simp [lookup, hf] at h
        simp [insertSorted, hlt, lookup, hf, ih h]

@[simp] theorem lookup_put_self (k : Nat) (v : α) (l : List (Nat × α)) : lookup k (put k v l) = some v :=
  lookup_insertSorted_self (k, v) _ (lookup_erase_self k l)

theorem lookup_put_other (k j : Nat) (v : α) (l : List (Nat × α)) (h : j ≠ k) :
    lookup j (put k v l) = lookup j l := by
  rw [put, lookup_insertSorted_other _ _ _ (Ne.symm h), lookup_erase_other _ _ _ h]

theorem mem_erase {k : Nat} {l : List (Nat × α)} {e : Nat × α} : e ∈ erase k l ↔ e ∈ l ∧ e.1 ≠ k := by
  simp [erase]

theorem mem_insertSorted {e f : Nat × α} {l : List (Nat × α)} : f ∈ insertSorted e l ↔ f = e ∨ f ∈ l := by
  induction l with
  | nil => simp [insertSorted]
  | cons g l ih =>
    by_cases hlt : e.1 < g.1
    · simp [insertSorted, hlt]
    · simp only [insertSorted, hlt, if_false, List.mem_cons, ih]
      tauto

theorem mem_put {k : Nat} {v : α} {l : List (Nat × α)} {e : Nat × α} :
    e ∈ put k v l ↔ e = (k, v) ∨ (e ∈ l ∧ e.1 ≠ k) := by
  rw [put, mem_insertSorted, mem_erase]

theorem pairwise_erase {k : Nat} {l : List (Nat × α)} (h : l.Pairwise fun e f => e.1 < f.1) :
    (erase k l).Pairwise fun e f => e.1 < f.1 :=
  h.filter _

theorem pairwise_insertSorted {e : Nat × α} {l : List (Nat × α)} (h : l.Pairwise fun e f => e.1 < f.1)
    (hne : ∀ f ∈ l, f.1 ≠ e.1) : (insertSorted e l).Pairwise fun e f => e.1 < f.1 := by
  induction l with
  | nil => simp [insertSorted]
  | cons g l ih =>
    have hg := List.pairwise_cons.mp h
    by_cases hlt : e.1 < g.1
    · simp only [insertSorted, hlt, if_true]
      refine List.pairwise_cons.mpr ⟨fun f hf => ?_, h⟩
      rcases List.mem_cons.mp hf with rfl | hf
      · exact hlt
      · exact lt_trans hlt (hg.1 f hf)
    · simp only [insertSorted, hlt, if_false]
      refine List.pairwise_cons.mpr ⟨fun f hf => ?_, ih hg.2 fun f hf => hne f (List.mem_cons_of_mem _ hf)⟩
      rcases mem_insertSorted.mp hf with rfl | hf
      · have := hne g List.mem_cons_self
        omega
      · exact hg.1 f hf

theorem pairwise_put {k : Nat} {v : α} {l : List (Nat × α)} (h : l.Pairwise fun e f => e.1 < f.1) :
    (put k v l).Pairwise fun e f => e.1 < f.1 :=
  pairwise_insertSorted (pairwise_erase h) fun _ hf => (mem_erase.mp hf).2

/-- In a list of rising keys, an entry is what its key looks up. -/
theorem lookup_eq_some_iff {k : Nat} {v : α} {l : List (Nat × α)} (h : l.Pairwise fun e f => e.1 < f.1) :
    lookup k l = some v ↔ (k, v) ∈ l := by
  induction l with
  | nil => simp [lookup]
  | cons e l ih =>
    have he := List.pairwise_cons.mp h
    by_cases hk : e.1 = k
    · simp only [lookup, hk, if_true, List.mem_cons, Option.some.injEq]
      constructor
      · rintro rfl
        exact .inl (by rw [← hk])
      · rintro (h' | h')
        · rw [← h']
        · exact absurd (he.1 _ h') (by simp [hk])
    · simp only [lookup, hk, if_false, ih he.2, List.mem_cons]
      constructor
      · exact .inr
      · rintro (h' | h')
        · exact absurd (by rw [← h']) hk
        · exact h'

theorem lookup_mem_keys {k : Nat} {v : α} {l : List (Nat × α)} (h : lookup k l = some v) : k ∈ l.map (·.1) := by
  induction l with
  | nil => simp [lookup] at h
  | cons e l ih =>
    by_cases hk : e.1 = k
    · simp [hk]
    · simp only [lookup, hk, if_false] at h
      exact List.mem_cons_of_mem _ (ih h)

end Maps

/-! ## One byte -/

@[simp] theorem read_write_self (m : Memory) (a : Nat) (v : Byte) : (m.write a v).read a = v := by
  by_cases h : v = Memory.unlisted
  · rw [Memory.write, if_pos h, Memory.read, lookup_erase_self, h]; rfl
  · rw [Memory.write, if_neg h, Memory.read, lookup_put_self]; rfl

theorem read_write_other (m : Memory) (a b : Nat) (v : Byte) (h : b ≠ a) : (m.write a v).read b = m.read b := by
  by_cases hv : v = Memory.unlisted
  · rw [Memory.write, if_pos hv, Memory.read, lookup_erase_other _ _ _ h]; rfl
  · rw [Memory.write, if_neg hv, Memory.read, lookup_put_other _ _ _ _ h]; rfl

/-- Writing one byte keeps the canonical form. -/
theorem wf_write {m : Memory} (h : m.wf) (a : Nat) (v : Byte) (ha : a < 2 ^ 64) : (m.write a v).wf := by
  by_cases hv : v = Memory.unlisted
  · rw [Memory.write, if_pos hv]
    exact ⟨pairwise_erase h.1, fun c hc => h.2 c (mem_erase.mp hc).1⟩
  · rw [Memory.write, if_neg hv]
    refine ⟨pairwise_put h.1, fun c hc => ?_⟩
    rcases mem_put.mp hc with rfl | hc
    · exact ⟨ha, hv⟩
    · exact h.2 c hc.1

/-- Canonical memories that read alike are equal. -/
theorem wf_ext {m n : Memory} (hm : m.wf) (hn : n.wf) (h : ∀ a, m.read a = n.read a) : m = n := by
  have sub : ∀ {m n : Memory}, m.wf → n.wf → (∀ a, m.read a = n.read a) → ∀ c ∈ m, c ∈ n := by
    intro m n hm hn h c hc
    have h1 : lookup c.1 m = some c.2 := (lookup_eq_some_iff hm.1).mpr hc
    have h2 := h c.1
    rw [Memory.read, Memory.read, h1] at h2
    cases h3 : lookup c.1 n with
    | none => rw [h3] at h2; exact absurd h2 (hm.2 c hc).2
    | some v =>
      rw [h3] at h2
      have hv : c.2 = v := h2
      have := (lookup_eq_some_iff hn.1).mp h3
      rwa [← hv] at this
  have nodup : ∀ {m : Memory}, m.wf → m.Nodup := fun hm => hm.1.imp fun h e => by simp [e] at h
  have perm : m.Perm n := (List.perm_ext_iff_of_nodup (nodup hm) (nodup hn)).mpr fun c =>
    ⟨sub hm hn h c, sub hn hm (fun a => (h a).symm) c⟩
  exact perm.eq_of_pairwise (fun a b _ _ h1 h2 => absurd h1 (by omega)) hm.1 hn.1

/-! ## The bytes of an access -/

theorem byteAddr_lt (ea : Doubleword) (i : Nat) : byteAddr ea i < 2 ^ 64 := Nat.mod_lt _ (by decide)

/-- The bytes of an access of at most 2^64 bytes have different addresses. -/
theorem byteAddr_inj {ea : Doubleword} {i j : Nat} (hi : i < 2 ^ 64) (hj : j < 2 ^ 64)
    (h : byteAddr ea i = byteAddr ea j) : i = j := by
  unfold byteAddr at h
  omega

/-- A byte outside the bytes written reads as before. -/
theorem read_writeBytes_outside (bs : List Byte) (m : Memory) (ea : Doubleword) (i a : Nat)
    (h : ∀ k, k < bs.length → a ≠ byteAddr ea (i + k)) : (m.writeBytes ea i bs).read a = m.read a := by
  induction bs generalizing m i with
  | nil => rfl
  | cons b bs ih =>
    rw [Memory.writeBytes, ih]
    · exact read_write_other _ _ _ _ (h 0 (by simp))
    · intro k hk
      have := h (k + 1) (by simpa using hk)
      rwa [show i + (k + 1) = i + 1 + k by omega] at this

/-- A byte written reads as the byte that was written there. -/
theorem read_writeBytes_inside (bs : List Byte) (m : Memory) (ea : Doubleword) (i k : Nat) (hk : k < bs.length)
    (hlen : i + bs.length ≤ 2 ^ 64) : (m.writeBytes ea i bs).read (byteAddr ea (i + k)) = bs[k] := by
  induction bs generalizing m i k with
  | nil => simp at hk
  | cons b bs ih =>
    rw [Memory.writeBytes]
    simp only [List.length_cons] at hlen hk
    cases k with
    | zero =>
      rw [read_writeBytes_outside]
      · simp
      · intro j hj e
        have := byteAddr_inj (by omega) (by omega) e
        omega
    | succ k =>
      rw [show i + (k + 1) = i + 1 + k by omega, ih _ _ _ (by omega) (by omega)]
      rfl

/-- Reading back an access that was just written. -/
theorem readBytes_writeBytes (m : Memory) (ea : Doubleword) (bs : List Byte) (h : bs.length ≤ 2 ^ 64) :
    (m.writeBytes ea 0 bs).readBytes ea bs.length = bs := by
  apply List.ext_getElem
  · simp [Memory.readBytes]
  · intro k h1 h2
    have := read_writeBytes_inside bs m ea 0 k h2 (by omega)
    simpa [Memory.readBytes] using this

/-- Writing the bytes of an access keeps the canonical form. -/
theorem wf_writeBytes (bs : List Byte) {m : Memory} (h : m.wf) (ea : Doubleword) (i : Nat) :
    (m.writeBytes ea i bs).wf := by
  induction bs generalizing m i with
  | nil => exact h
  | cons b bs ih => exact ih (wf_write h _ _ (byteAddr_lt _ _)) _

end Sys2Proof.Machine
end

