-- ==== Sys2Proof/Laws/State.lean ====
section
/-! SUPPORT. One lemma per field per update of the state, so that no proof unfolds a record update, and reading a
register after a write of one. -/

namespace Sys2Proof.Machine

@[simp] theorem writeGpr_gpr (s : State) (r : Reg) (v : Doubleword) :
    (s.writeGpr r v).gpr = s.gpr.set r.val v := rfl

@[simp] theorem writeGpr_fpr (s : State) (r : Reg) (v : Doubleword) : (s.writeGpr r v).fpr = s.fpr := rfl

@[simp] theorem writeGpr_spTag (s : State) (r : Reg) (v : Doubleword) : (s.writeGpr r v).spTag = s.spTag := rfl

@[simp] theorem writeGpr_pc (s : State) (r : Reg) (v : Doubleword) : (s.writeGpr r v).pc = s.pc := rfl

@[simp] theorem writeGpr_fpAvail (s : State) (r : Reg) (v : Doubleword) : (s.writeGpr r v).fpAvail = s.fpAvail := rfl

@[simp] theorem writeGpr_mem (s : State) (r : Reg) (v : Doubleword) : (s.writeGpr r v).mem = s.mem := rfl

@[simp] theorem writeGpr_program (s : State) (r : Reg) (v : Doubleword) : (s.writeGpr r v).program = s.program := rfl

@[simp] theorem writeGpr_cfg (s : State) (r : Reg) (v : Doubleword) : (s.writeGpr r v).cfg = s.cfg := rfl

@[simp] theorem writeGpr_overwritten (s : State) (r : Reg) (v : Doubleword) : (s.writeGpr r v).overwritten = s.overwritten := rfl

@[simp] theorem writeGpr_draws (s : State) (r : Reg) (v : Doubleword) : (s.writeGpr r v).draws = s.draws := rfl

@[simp] theorem loadFpr_gpr (s : State) (r : Reg) (v : Doubleword) (b : Bool) : (s.loadFpr r v b).gpr = s.gpr := rfl

@[simp] theorem loadFpr_fpr (s : State) (r : Reg) (v : Doubleword) (b : Bool) :
    (s.loadFpr r v b).fpr = s.fpr.set r.val v := rfl

@[simp] theorem loadFpr_spTag (s : State) (r : Reg) (v : Doubleword) (b : Bool) :
    (s.loadFpr r v b).spTag = s.spTag.set r.val b := rfl

@[simp] theorem loadFpr_pc (s : State) (r : Reg) (v : Doubleword) (b : Bool) : (s.loadFpr r v b).pc = s.pc := rfl

@[simp] theorem loadFpr_fpAvail (s : State) (r : Reg) (v : Doubleword) (b : Bool) : (s.loadFpr r v b).fpAvail = s.fpAvail := rfl

@[simp] theorem loadFpr_mem (s : State) (r : Reg) (v : Doubleword) (b : Bool) : (s.loadFpr r v b).mem = s.mem := rfl

@[simp] theorem loadFpr_program (s : State) (r : Reg) (v : Doubleword) (b : Bool) : (s.loadFpr r v b).program = s.program := rfl

@[simp] theorem loadFpr_cfg (s : State) (r : Reg) (v : Doubleword) (b : Bool) : (s.loadFpr r v b).cfg = s.cfg := rfl

@[simp] theorem loadFpr_overwritten (s : State) (r : Reg) (v : Doubleword) (b : Bool) : (s.loadFpr r v b).overwritten = s.overwritten := rfl

@[simp] theorem loadFpr_draws (s : State) (r : Reg) (v : Doubleword) (b : Bool) : (s.loadFpr r v b).draws = s.draws := rfl

@[simp] theorem advance_gpr (s : State) : (s.advance).gpr = s.gpr := rfl

@[simp] theorem advance_fpr (s : State) : (s.advance).fpr = s.fpr := rfl

@[simp] theorem advance_spTag (s : State) : (s.advance).spTag = s.spTag := rfl

@[simp] theorem advance_pc (s : State) :
    (s.advance).pc = s.pc + 4 := rfl

@[simp] theorem advance_fpAvail (s : State) : (s.advance).fpAvail = s.fpAvail := rfl

@[simp] theorem advance_mem (s : State) : (s.advance).mem = s.mem := rfl

@[simp] theorem advance_program (s : State) : (s.advance).program = s.program := rfl

@[simp] theorem advance_cfg (s : State) : (s.advance).cfg = s.cfg := rfl

@[simp] theorem advance_overwritten (s : State) : (s.advance).overwritten = s.overwritten := rfl

@[simp] theorem advance_draws (s : State) : (s.advance).draws = s.draws := rfl

@[simp] theorem storeValue_gpr (s : State) (ea : Doubleword) (n v : Nat) : (s.storeValue ea n v).gpr = s.gpr := rfl

@[simp] theorem storeValue_fpr (s : State) (ea : Doubleword) (n v : Nat) : (s.storeValue ea n v).fpr = s.fpr := rfl

@[simp] theorem storeValue_spTag (s : State) (ea : Doubleword) (n v : Nat) : (s.storeValue ea n v).spTag = s.spTag := rfl

@[simp] theorem storeValue_pc (s : State) (ea : Doubleword) (n v : Nat) : (s.storeValue ea n v).pc = s.pc := rfl

@[simp] theorem storeValue_fpAvail (s : State) (ea : Doubleword) (n v : Nat) : (s.storeValue ea n v).fpAvail = s.fpAvail := rfl

@[simp] theorem storeValue_mem (s : State) (ea : Doubleword) (n v : Nat) :
    (s.storeValue ea n v).mem = s.mem.writeBytes ea 0 (layOut s.cfg.byteOrder n v) := rfl

@[simp] theorem storeValue_program (s : State) (ea : Doubleword) (n v : Nat) : (s.storeValue ea n v).program = s.program := rfl

@[simp] theorem storeValue_cfg (s : State) (ea : Doubleword) (n v : Nat) : (s.storeValue ea n v).cfg = s.cfg := rfl

@[simp] theorem storeValue_overwritten (s : State) (ea : Doubleword) (n v : Nat) :
    (s.storeValue ea n v).overwritten = markOverwritten s ea n := rfl

@[simp] theorem storeValue_draws (s : State) (ea : Doubleword) (n v : Nat) : (s.storeValue ea n v).draws = s.draws := rfl

@[simp] theorem draw_gpr (s : State) : (s.draw.2).gpr = s.gpr := rfl

@[simp] theorem draw_fpr (s : State) : (s.draw.2).fpr = s.fpr := rfl

@[simp] theorem draw_spTag (s : State) : (s.draw.2).spTag = s.spTag := rfl

@[simp] theorem draw_pc (s : State) : (s.draw.2).pc = s.pc := rfl

@[simp] theorem draw_fpAvail (s : State) : (s.draw.2).fpAvail = s.fpAvail := rfl

@[simp] theorem draw_mem (s : State) : (s.draw.2).mem = s.mem := rfl

@[simp] theorem draw_program (s : State) : (s.draw.2).program = s.program := rfl

@[simp] theorem draw_cfg (s : State) : (s.draw.2).cfg = s.cfg := rfl

@[simp] theorem draw_overwritten (s : State) : (s.draw.2).overwritten = s.overwritten := rfl

@[simp] theorem draw_draws (s : State) :
    (s.draw.2).draws = s.draws + 1 := rfl

@[simp] theorem storeDoubleword_gpr (s : State) (ea d : Doubleword) : (s.storeDoubleword ea d).gpr = s.gpr := rfl

@[simp] theorem storeDoubleword_fpr (s : State) (ea d : Doubleword) : (s.storeDoubleword ea d).fpr = s.fpr := rfl

@[simp] theorem storeDoubleword_spTag (s : State) (ea d : Doubleword) : (s.storeDoubleword ea d).spTag = s.spTag := rfl

@[simp] theorem storeDoubleword_pc (s : State) (ea d : Doubleword) : (s.storeDoubleword ea d).pc = s.pc := rfl

@[simp] theorem storeDoubleword_fpAvail (s : State) (ea d : Doubleword) : (s.storeDoubleword ea d).fpAvail = s.fpAvail := rfl

@[simp] theorem storeDoubleword_mem (s : State) (ea d : Doubleword) :
    (s.storeDoubleword ea d).mem = s.mem.writeBytes ea 0 (layOut s.cfg.byteOrder 8 d.toNat) := rfl

@[simp] theorem storeDoubleword_program (s : State) (ea d : Doubleword) : (s.storeDoubleword ea d).program = s.program := rfl

@[simp] theorem storeDoubleword_cfg (s : State) (ea d : Doubleword) : (s.storeDoubleword ea d).cfg = s.cfg := rfl

@[simp] theorem storeDoubleword_overwritten (s : State) (ea d : Doubleword) :
    (s.storeDoubleword ea d).overwritten = markOverwritten s ea 8 := rfl

@[simp] theorem storeDoubleword_draws (s : State) (ea d : Doubleword) : (s.storeDoubleword ea d).draws = s.draws := rfl

/-! ## Reading after an update -/

@[simp] theorem readGpr_writeGpr_self (s : State) (r : Reg) (v : Doubleword) : (s.writeGpr r v).readGpr r = v := by
  simp [State.readGpr, State.writeGpr]

theorem readGpr_writeGpr_other (s : State) (r q : Reg) (v : Doubleword) (h : q ≠ r) :
    (s.writeGpr r v).readGpr q = s.readGpr q := by
  have h' : r.val ≠ q.val := fun e => h (Fin.ext e.symm)
  simp [State.readGpr, State.writeGpr, h']

@[simp] theorem readFpr_loadFpr_self (s : State) (r : Reg) (v : Doubleword) (b : Bool) :
    (s.loadFpr r v b).readFpr r = v := by
  simp [State.readFpr, State.loadFpr]

theorem readFpr_loadFpr_other (s : State) (r q : Reg) (v : Doubleword) (b : Bool) (h : q ≠ r) :
    (s.loadFpr r v b).readFpr q = s.readFpr q := by
  have h' : r.val ≠ q.val := fun e => h (Fin.ext e.symm)
  simp [State.readFpr, State.loadFpr, h']

@[simp] theorem tagOf_loadFpr_self (s : State) (r : Reg) (v : Doubleword) (b : Bool) :
    (s.loadFpr r v b).tagOf r = b := by
  simp [State.tagOf, State.loadFpr]

theorem tagOf_loadFpr_other (s : State) (r q : Reg) (v : Doubleword) (b : Bool) (h : q ≠ r) :
    (s.loadFpr r v b).tagOf q = s.tagOf q := by
  have h' : r.val ≠ q.val := fun e => h (Fin.ext e.symm)
  simp [State.tagOf, State.loadFpr, h']

/-- A register read sees the register file only. -/
theorem readGpr_congr {s t : State} (h : t.gpr = s.gpr) (r : Reg) : t.readGpr r = s.readGpr r := by
  simp [State.readGpr, h]

theorem readFpr_congr {s t : State} (h : t.fpr = s.fpr) (r : Reg) : t.readFpr r = s.readFpr r := by
  simp [State.readFpr, h]

theorem tagOf_congr {s t : State} (h : t.spTag = s.spTag) (r : Reg) : t.tagOf r = s.tagOf r := by
  simp [State.tagOf, h]

/-- A draw, or none, changes the counter of draws and nothing else. -/
theorem orDraw_snd (s : State) (w : Option Word) :
    (s.orDraw w).2 = { s with draws := if w.isSome then s.draws else s.draws + 1 } := by
  cases w <;> rfl

/-- The word a store of a possibly undefined word writes. -/
theorem orDraw_fst (s : State) (w : Option Word) : (s.orDraw w).1 = w.getD (Config.freeWord s.draws) := by
  cases w <;> rfl

/-- The store of a possibly undefined word, as one update of the state. -/
theorem storeWordOrDraw_eq (s : State) (ea : Doubleword) (w : Option Word) :
    s.storeWordOrDraw ea w =
      { s with
        mem := s.mem.writeBytes ea 0 (layOut s.cfg.byteOrder 4 (w.getD (Config.freeWord s.draws)).toNat)
        overwritten := markOverwritten s ea 4
        draws := if w.isSome then s.draws else s.draws + 1 } := by
  cases w <;> rfl

end Sys2Proof.Machine
end

