-- ==== Sys2Proof/Laws/Ops.lean ====
section
/-! SUPPORT. One lemma per shared operation, which says everything it can do: the checks, the accesses, the marks of
overwritten code, fetch, and the running of a fetched word. -/

namespace Sys2Proof.Machine

/-! ## The checks -/

theorem requireFp_eq_next_iff {s t : State} {k : Outcome} :
    requireFp s k = .next t ↔ s.fpAvail = true ∧ k = .next t := by
  cases h : s.fpAvail <;> simp [requireFp, raise, h]

theorem requireFp_eq_fault_iff {s : State} {k : Outcome} {f : Fault} :
    requireFp s k = .fault f ↔ (s.fpAvail = false ∧ f = .fpUnavailable s.pc) ∨ (s.fpAvail = true ∧ k = .fault f) := by
  cases h : s.fpAvail <;> simp [requireFp, raise, h, eq_comm]

theorem requireForm_eq_next_iff {i : Instr} {s t : State} {k : Outcome} :
    requireForm i s k = .next t ↔ i.validForm = true ∧ k = .next t := by
  cases h : i.validForm <;> simp [requireForm, raise, h]

theorem requireForm_eq_fault_iff {i : Instr} {s : State} {k : Outcome} {f : Fault} :
    requireForm i s k = .fault f ↔
      (i.validForm = false ∧ f = .invalidForm (encode s.cfg i) s.pc) ∨ (i.validForm = true ∧ k = .fault f) := by
  cases h : i.validForm <;> simp [requireForm, raise, h, eq_comm]

theorem requireAccess_eq_next_iff {s t : State} {ea : Doubleword} {n : Nat} {k : AccessKind} {o : Outcome} :
    requireAccess s ea n k o = .next t ↔ memCheck s ea n k = none ∧ o = .next t := by
  cases h : memCheck s ea n k <;> simp [requireAccess, raise, h]

theorem requireAccess_next_eq_fault_iff {s t : State} {ea : Doubleword} {n : Nat} {k : AccessKind} {f : Fault} :
    requireAccess s ea n k (.next t) = .fault f ↔ memCheck s ea n k = some f := by
  cases h : memCheck s ea n k <;> simp [requireAccess, raise, h]

theorem accessValid_iff {cfg : Config} {ea : Doubleword} {n : Nat} {k : AccessKind} :
    accessValid cfg ea n k = true ↔ ∀ i ∈ List.range n, memValid cfg ((ea.toNat + i) % 2 ^ 64) k = true := by
  simp [accessValid, byteAddr]

theorem accessValid_false_iff {cfg : Config} {ea : Doubleword} {n : Nat} {k : AccessKind} :
    accessValid cfg ea n k = false ↔ ∃ j, j < n ∧ memValid cfg ((ea.toNat + j) % 2 ^ 64) k = false := by
  simp [accessValid, byteAddr]

theorem alignPolicy_ne_fault_iff {p : AlignPolicy} : p ≠ .fault ↔ p = .perform := by cases p <;> simp

/-- `MemCheck` passes exactly the accesses that the platform allows (20_memory.md R46). -/
theorem memCheck_eq_none_iff {s : State} {ea : Doubleword} {n : Nat} {k : AccessKind} :
    memCheck s ea n k = none ↔ s.allows ea n k := by
  rw [State.allows, ← accessValid_iff, ← alignPolicy_ne_fault_iff, memCheck]
  by_cases h : s.cfg.alignPolicy = .fault <;> by_cases h2 : ea.toNat % n = 0 <;>
    cases h3 : accessValid s.cfg ea n k <;> simp [h, h2]

/-- The faults `MemCheck` raises, and when (20_memory.md R46). -/
theorem memCheck_eq_some_iff {s : State} {ea : Doubleword} {n : Nat} {k : AccessKind} {f : Fault} :
    memCheck s ea n k = some f ↔
      (s.cfg.alignPolicy = .fault ∧ ea.toNat % n ≠ 0 ∧ f = .alignmentFault ea) ∨
      ((s.cfg.alignPolicy = .perform ∨ ea.toNat % n = 0) ∧ accessValid s.cfg ea n k = false ∧
        f = .storageFault ea k) := by
  rw [memCheck, ← alignPolicy_ne_fault_iff]
  by_cases h : s.cfg.alignPolicy = .fault <;> by_cases h2 : ea.toNat % n = 0 <;>
    cases h3 : accessValid s.cfg ea n k <;> simp [h, h2, eq_comm]

/-! ## Accesses -/

/-- What storage reads as after a value is stored (20_memory.md R41, R43). -/
theorem storeValue_storedInto (s : State) (ea : Doubleword) (n v : Nat) (hn : n ≤ 2 ^ 64) :
    s.storedInto (s.storeValue ea n v) ea n v := by
  refine ⟨fun k hk => ?_, fun a ha => ?_⟩
  · have h := read_writeBytes_inside (layOut s.cfg.byteOrder n v) s.mem ea 0 k (by simpa using hk) (by simpa using hn)
    simp only [Nat.zero_add, byteAddr] at h
    rw [storeValue_mem, h]
    cases hbo : s.cfg.byteOrder
    · simp [layOut, getElem_bytesOf]
    · simp only [layOut, List.getElem_reverse, length_bytesOf, getElem_bytesOf]
      congr 3
      omega
  · rw [storeValue_mem]
    exact read_writeBytes_outside _ _ _ _ _ (by simpa [byteAddr] using ha)

/-- Loading the bytes that hold a value (20_memory.md R43). -/
theorem readBytes_storeValue (s : State) (ea : Doubleword) (n v : Nat) (hn : n ≤ 2 ^ 64) :
    (s.storeValue ea n v).mem.readBytes ea n = layOut s.cfg.byteOrder n v := by
  have h := readBytes_writeBytes s.mem ea (layOut s.cfg.byteOrder n v) (by simpa using hn)
  simpa using h

/-- The word loaded is what its four bytes assemble (20_memory.md R43). -/
theorem loadWord_toNat (s : State) (ea : Doubleword) :
    (s.loadWord ea).toNat = assemble s.cfg.byteOrder (s.mem.readBytes ea 4) := by
  rw [State.loadWord, BitVec.toNat_ofNat, Nat.mod_eq_of_lt]
  have := assemble_lt s.cfg.byteOrder (s.mem.readBytes ea 4)
  simpa [Memory.readBytes] using this

/-- The doubleword loaded is what its eight bytes assemble (20_memory.md R43). -/
theorem loadDoubleword_toNat (s : State) (ea : Doubleword) :
    (s.loadDoubleword ea).toNat = assemble s.cfg.byteOrder (s.mem.readBytes ea 8) := by
  rw [State.loadDoubleword, BitVec.toNat_ofNat, Nat.mod_eq_of_lt]
  have := assemble_lt s.cfg.byteOrder (s.mem.readBytes ea 8)
  simpa [Memory.readBytes] using this

theorem touches_iff {ea : Doubleword} {n a : Nat} :
    touches ea n a = true ↔ ∃ k, k < n ∧ a ≤ (ea.toNat + k) % 2 ^ 64 ∧ (ea.toNat + k) % 2 ^ 64 < a + 4 := by
  simp only [touches, List.any_eq_true, List.mem_range, decide_eq_true_eq]
  rfl

/-- Which words of Program are marked once a store is performed (20_memory.md R53). -/
theorem mem_markOverwritten {s : State} {ea : Doubleword} {n a : Nat} :
    a ∈ markOverwritten s ea n ↔
      a ∈ s.program.map (·.1) ∧ (a ∈ s.overwritten ∨ touches ea n a = true) := by
  rw [markOverwritten, List.mem_filter]
  simp

/-! ## Fetch -/

theorem fetch_eq_next_iff {s : State} {w : Word} :
    fetch s = .next w ↔
      lookup s.pc.toNat s.program = some w ∧ accessValid s.cfg s.pc 4 .fetch = true ∧ s.pc.toNat ∉ s.overwritten := by
  unfold fetch
  cases h : lookup s.pc.toNat s.program with
  | none => simp
  | some v =>
    cases h2 : accessValid s.cfg s.pc 4 .fetch <;> by_cases h3 : s.pc.toNat ∈ s.overwritten <;> simp [h3]

theorem fetch_eq_fault_iff {s : State} {f : Fault} :
    fetch s = .fault f ↔
      f = .storageFault s.pc .fetch ∧
        (lookup s.pc.toNat s.program = none ∨ accessValid s.cfg s.pc 4 .fetch = false) := by
  rw [eq_comm (a := f)]
  unfold fetch
  cases h : lookup s.pc.toNat s.program with
  | none => simp
  | some v =>
    cases h2 : accessValid s.cfg s.pc 4 .fetch <;> by_cases h3 : s.pc.toNat ∈ s.overwritten <;> simp [h3]

theorem fetch_eq_refused_iff {s : State} {r : Refusal} :
    fetch s = .refused r ↔
      r = .overwrittenCode s.pc ∧ (∃ w, lookup s.pc.toNat s.program = some w) ∧
        accessValid s.cfg s.pc 4 .fetch = true ∧ s.pc.toNat ∈ s.overwritten := by
  rw [eq_comm (a := r)]
  unfold fetch
  cases h : lookup s.pc.toNat s.program with
  | none => simp
  | some v =>
    cases h2 : accessValid s.cfg s.pc 4 .fetch <;> by_cases h3 : s.pc.toNat ∈ s.overwritten <;> simp [h3]

/-- What the running of a fetched word can answer (60_exceptions.md R125). -/
theorem runWord_cases (run : Instr → State → Outcome) (w : Word) (s : State) :
    (∃ i, decode s.cfg w = .ok i ∧ runWord run w s = run i s) ∨
      (∃ e, decode s.cfg w = .error e ∧ runWord run w s = .fault (.illegalInstruction w s.pc)) := by
  unfold runWord raise
  cases decode s.cfg w <;> simp

/-- What a completed step was: the word at `pc`, fetched and decoded, and the instruction run (10_state.md R32). -/
theorem step_eq_next {s t : State} (h : step s = .next t) :
    ∃ w i, fetch s = .next w ∧ decode s.cfg w = .ok i ∧ exec i s = .next t := by
  unfold step at h
  cases hf : fetch s with
  | next w =>
    rw [hf] at h
    replace h : runWord exec w s = .next t := h
    rcases runWord_cases exec w s with ⟨i, hi, hr⟩ | ⟨e, _, hr⟩
    · exact ⟨w, i, rfl, hi, hr ▸ h⟩
    · rw [hr] at h; cases h
  | fault f => rw [hf] at h; cases h
  | refused r => rw [hf] at h; cases h

end Sys2Proof.Machine
end

