-- ==== Sys2Proof/Laws/Exec.lean ====
section
/-! SUPPORT. Said once for all fifteen instructions: the checks, in order, and then the effect. Later proofs cite
`exec_eq_next_iff` and the lemmas about `effect` and unfold no meaning. -/

namespace Sys2Proof.Machine

/-- What an instruction leaves when it completes. -/
def effect (i : Instr) (s : State) : State :=
  let ea := effAddr i s
  match i with
  | .lfssx frt _ _ _ => (s.loadFpr frt (double (s.loadWord ea)) true).advance
  | .lfsusx frt ra _ _ => ((s.loadFpr frt (double (s.loadWord ea)) true).writeGpr ra ea).advance
  | .lfdsx frt _ _ _ => (s.loadFpr frt (s.loadDoubleword ea) false).advance
  | .lfdusx frt ra _ _ => ((s.loadFpr frt (s.loadDoubleword ea) false).writeGpr ra ea).advance
  | .lfiwasx frt _ _ _ => (s.loadFpr frt (sext64 (s.loadWord ea)) false).advance
  | .lfiwzsx frt _ _ _ => (s.loadFpr frt (zext64 (s.loadWord ea)) false).advance
  | .stfs frs _ _ => (s.storeWordOrDraw ea (single (s.readFpr frs))).advance
  | .stfsx frs _ _ => (s.storeWordOrDraw ea (single (s.readFpr frs))).advance
  | .stfsu frs _ ra => ((s.storeWordOrDraw ea (single (s.readFpr frs))).writeGpr ra ea).advance
  | .stfsux frs ra _ => ((s.storeWordOrDraw ea (single (s.readFpr frs))).writeGpr ra ea).advance
  | .stfd frs _ _ => (s.storeDoubleword ea (s.readFpr frs)).advance
  | .stfdx frs _ _ => (s.storeDoubleword ea (s.readFpr frs)).advance
  | .stfdu frs _ ra => ((s.storeDoubleword ea (s.readFpr frs)).writeGpr ra ea).advance
  | .stfdux frs ra _ => ((s.storeDoubleword ea (s.readFpr frs)).writeGpr ra ea).advance
  | .stfiwx frs _ _ => (s.storeWordOrDraw ea (integerWord s frs)).advance

/-- Every instruction: availability, form, access, effect, in this order (10_state.md R32). -/
theorem exec_eq (i : Instr) (s : State) :
    exec i s = requireFp s (requireForm i s
      (requireAccess s (effAddr i s) (accessBytes i) (accessKind i) (.next (effect i s)))) := by
  cases i <;> rfl

/-- An instruction completes exactly when its checks pass, and then the state is its effect. -/
theorem exec_eq_next_iff {i : Instr} {s t : State} :
    exec i s = .next t ↔
      s.fpAvail = true ∧ i.validForm = true ∧ memCheck s (effAddr i s) (accessBytes i) (accessKind i) = none ∧
        t = effect i s := by
  rw [exec_eq, requireFp_eq_next_iff, requireForm_eq_next_iff, requireAccess_eq_next_iff, eq_comm (a := t)]
  simp

/-- The faults of an instruction, in their order (60_exceptions.md R128). -/
theorem exec_eq_fault_iff {i : Instr} {s : State} {f : Fault} :
    exec i s = .fault f ↔
      (s.fpAvail = false ∧ f = .fpUnavailable s.pc) ∨
      (s.fpAvail = true ∧ i.validForm = false ∧ f = .invalidForm (encode s.cfg i) s.pc) ∨
      (s.fpAvail = true ∧ i.validForm = true ∧
        memCheck s (effAddr i s) (accessBytes i) (accessKind i) = some f) := by
  rw [exec_eq, requireFp_eq_fault_iff, requireForm_eq_fault_iff, requireAccess_next_eq_fault_iff]
  tauto

/-- No instruction is refused. -/
theorem exec_ne_refused (i : Instr) (s : State) (r : Refusal) : exec i s ≠ .refused r := by
  rw [exec_eq, requireFp, requireForm, requireAccess]
  cases s.fpAvail <;> cases i.validForm <;>
    cases memCheck s (effAddr i s) (accessBytes i) (accessKind i) <;> simp [raise]

/-- The checks of an instruction see `fpAvail`, `pc`, the parameters and EA only: two states that agree on these fault
alike, and complete alike when their effects do. -/
theorem exec_congr (i : Instr) (s s' : State) (f g : State → State) (hfp : s'.fpAvail = s.fpAvail)
    (hpc : s'.pc = s.pc) (hcfg : s'.cfg = s.cfg) (hea : effAddr i s' = effAddr i s)
    (heff : f (effect i s') = g (effect i s)) : mapNext f (exec i s') = mapNext g (exec i s) := by
  have hmc : memCheck s' (effAddr i s') (accessBytes i) (accessKind i) =
      memCheck s (effAddr i s) (accessBytes i) (accessKind i) := by simp only [memCheck, hcfg, hea]
  rw [exec_eq, exec_eq]
  simp only [requireFp, requireForm, requireAccess, hmc, hfp, hpc, hcfg]
  split
  · split
    · split
      · simp only [mapNext, heff]
      · rfl
    · rfl
  · rfl

/-- A form is invalid exactly when it is an update form with RA = 0 (30_encoding.md R68). -/
theorem validForm_eq_false_iff {i : Instr} : i.validForm = false ↔ updateReg i = some 0 := by
  cases i <;> simp [Instr.validForm, updateReg]

theorem validForm_eq_true_iff {i : Instr} : i.validForm = true ↔ updateReg i ≠ some 0 := by
  rw [ne_eq, ← validForm_eq_false_iff, Bool.not_eq_false]

/-! ## The effect, field by field -/

theorem effect_pc (i : Instr) (s : State) : (effect i s).pc = s.pc + 4 := by
  cases i <;> simp [effect, storeWordOrDraw_eq]

theorem effect_fpAvail (i : Instr) (s : State) : (effect i s).fpAvail = s.fpAvail := by
  cases i <;> simp [effect, storeWordOrDraw_eq]

theorem effect_program (i : Instr) (s : State) : (effect i s).program = s.program := by
  cases i <;> simp [effect, storeWordOrDraw_eq]

theorem effect_cfg (i : Instr) (s : State) : (effect i s).cfg = s.cfg := by
  cases i <;> simp [effect, storeWordOrDraw_eq]

/-- The general registers after an instruction (10_state.md R21). -/
theorem effect_gpr (i : Instr) (s : State) :
    (effect i s).gpr = match updateReg i with
      | some ra => s.gpr.set ra.val (effAddr i s)
      | none => s.gpr := by
  cases i <;> simp [effect, updateReg, storeWordOrDraw_eq]

/-- A store leaves floating-point registers and tags alone (41_fp_store.md R112). -/
theorem effect_fpr_of_store (i : Instr) (s : State) (h : loadTarget i = none) :
    (effect i s).fpr = s.fpr ∧ (effect i s).spTag = s.spTag := by
  cases i <;> simp [loadTarget, effect, storeWordOrDraw_eq] at h ⊢

/-- A load writes its target and the target's tag only (40_fp_load_shifted.md R80). -/
theorem effect_fpr_of_load (i : Instr) (s : State) (frt : Reg) (h : loadTarget i = some frt) :
    ∃ v b, (effect i s).fpr = s.fpr.set frt.val v ∧ (effect i s).spTag = s.spTag.set frt.val b := by
  cases i <;> simp [loadTarget] at h <;> subst h <;> exact ⟨_, _, rfl, rfl⟩

/-- A load leaves storage and the model's own fields alone (40_fp_load_shifted.md R80). -/
theorem effect_mem_of_load (i : Instr) (s : State) (frt : Reg) (h : loadTarget i = some frt) :
    (effect i s).mem = s.mem ∧ (effect i s).overwritten = s.overwritten ∧ (effect i s).draws = s.draws := by
  cases i <;> simp [loadTarget, effect] at h ⊢

/-- The word or doubleword a store writes, as a number. -/
def storedValue (i : Instr) (s : State) : Nat :=
  match i with
  | .stfs frs _ _ => ((single (s.readFpr frs)).getD (Config.freeWord s.draws)).toNat
  | .stfsx frs _ _ => ((single (s.readFpr frs)).getD (Config.freeWord s.draws)).toNat
  | .stfsu frs _ _ => ((single (s.readFpr frs)).getD (Config.freeWord s.draws)).toNat
  | .stfsux frs _ _ => ((single (s.readFpr frs)).getD (Config.freeWord s.draws)).toNat
  | .stfd frs _ _ => (s.readFpr frs).toNat
  | .stfdx frs _ _ => (s.readFpr frs).toNat
  | .stfdu frs _ _ => (s.readFpr frs).toNat
  | .stfdux frs _ _ => (s.readFpr frs).toNat
  | .stfiwx frs _ _ => ((integerWord s frs).getD (Config.freeWord s.draws)).toNat
  | _ => 0

/-- A store writes its value at EA, as the shared operation does, and marks code as that operation does
(41_fp_store.md R112, 20_memory.md R53). -/
theorem effect_mem_of_store (i : Instr) (s : State) (h : loadTarget i = none) :
    (effect i s).mem = (s.storeValue (effAddr i s) (accessBytes i) (storedValue i s)).mem ∧
      (effect i s).overwritten = markOverwritten s (effAddr i s) (accessBytes i) := by
  cases i <;> simp [loadTarget] at h <;>
    simp [effect, storeWordOrDraw_eq, storedValue, accessBytes]

theorem accessKind_eq_load_iff {i : Instr} : accessKind i = .load ↔ ∃ frt, loadTarget i = some frt := by
  cases i <;> simp [accessKind, loadTarget]

theorem accessKind_eq_store_iff {i : Instr} : accessKind i = .store ↔ loadTarget i = none := by
  cases i <;> simp [accessKind, loadTarget]

end Sys2Proof.Machine
end

