-- ==== Sys2Proof/Laws/PerInstr.lean ====
section
/-! SUPPORT. The families of statements made instruction by instruction (LAWS.json). `EncodeFits`: the encoding of a
well-formed instruction is the number of one 32-bit word (30_encoding.md R60), so `encode` drops no bit of it. -/

namespace Sys2Proof.Laws.EncodeFits

/-- The number the layouts give for a well-formed instruction is below 2^32, and is the number of its word. -/
def Statement (i : Instr) : Prop :=
  ∀ cfg : Config, cfg.ok = true → i.wellFormed cfg = true →
    encodeNat cfg i < 2 ^ 32 ∧ (encode cfg i).toNat = encodeNat cfg i

theorem of_lt {i : Instr} (h : ∀ cfg : Config, cfg.ok = true → i.wellFormed cfg = true → encodeNat cfg i < 2 ^ 32) :
    Statement i := fun cfg hc hi =>
  ⟨h cfg hc hi, by rw [encode, BitVec.toNat_ofNat, Nat.mod_eq_of_lt (h cfg hc hi)]⟩

theorem of_shifted {cfg : Config} (hc : cfg.ok = true) (op : LoadOp) (frt ra rb : Reg) (sh : Shift)
    (h : decide (sh.val < 2 ^ cfg.shBits) = true) : encodeShifted cfg op frt ra rb sh < 2 ^ 32 :=
  (encodeShifted_parts hc op frt ra rb sh (of_decide_eq_true h)).1

theorem lfssx (frt ra rb : Reg) (sh : Shift) : Statement (.lfssx frt ra rb sh) :=
  of_lt fun _ hc hi => of_shifted hc .lfssx frt ra rb sh hi

theorem lfsusx (frt ra rb : Reg) (sh : Shift) : Statement (.lfsusx frt ra rb sh) :=
  of_lt fun _ hc hi => of_shifted hc .lfsusx frt ra rb sh hi

theorem lfdsx (frt ra rb : Reg) (sh : Shift) : Statement (.lfdsx frt ra rb sh) :=
  of_lt fun _ hc hi => of_shifted hc .lfdsx frt ra rb sh hi

theorem lfdusx (frt ra rb : Reg) (sh : Shift) : Statement (.lfdusx frt ra rb sh) :=
  of_lt fun _ hc hi => of_shifted hc .lfdusx frt ra rb sh hi

theorem lfiwasx (frt ra rb : Reg) (sh : Shift) : Statement (.lfiwasx frt ra rb sh) :=
  of_lt fun _ hc hi => of_shifted hc .lfiwasx frt ra rb sh hi

theorem lfiwzsx (frt ra rb : Reg) (sh : Shift) : Statement (.lfiwzsx frt ra rb sh) :=
  of_lt fun _ hc hi => of_shifted hc .lfiwzsx frt ra rb sh hi

theorem stfs (frs : Reg) (d : BitVec 16) (ra : Reg) : Statement (.stfs frs d ra) :=
  of_lt fun _ _ _ => encodeD_lt frs d ra (by norm_num)

theorem stfsx (frs ra rb : Reg) : Statement (.stfsx frs ra rb) :=
  of_lt fun _ _ _ => encodeX_lt frs ra rb (by norm_num) (by norm_num)

theorem stfsu (frs : Reg) (d : BitVec 16) (ra : Reg) : Statement (.stfsu frs d ra) :=
  of_lt fun _ _ _ => encodeD_lt frs d ra (by norm_num)

theorem stfsux (frs ra rb : Reg) : Statement (.stfsux frs ra rb) :=
  of_lt fun _ _ _ => encodeX_lt frs ra rb (by norm_num) (by norm_num)

theorem stfd (frs : Reg) (d : BitVec 16) (ra : Reg) : Statement (.stfd frs d ra) :=
  of_lt fun _ _ _ => encodeD_lt frs d ra (by norm_num)

theorem stfdx (frs ra rb : Reg) : Statement (.stfdx frs ra rb) :=
  of_lt fun _ _ _ => encodeX_lt frs ra rb (by norm_num) (by norm_num)

theorem stfdu (frs : Reg) (d : BitVec 16) (ra : Reg) : Statement (.stfdu frs d ra) :=
  of_lt fun _ _ _ => encodeD_lt frs d ra (by norm_num)

theorem stfdux (frs ra rb : Reg) : Statement (.stfdux frs ra rb) :=
  of_lt fun _ _ _ => encodeX_lt frs ra rb (by norm_num) (by norm_num)

theorem stfiwx (frs ra rb : Reg) : Statement (.stfiwx frs ra rb) :=
  of_lt fun _ _ _ => encodeX_lt frs ra rb (by norm_num) (by norm_num)

end Sys2Proof.Laws.EncodeFits
end

