-- ==== Sys2Proof/Tests/Slice0.lean ====
section
/-! SUPPORT. The model's own tests. Expected values are those of spec/95_test_vectors.md (its vector number is in the
comment or the name) and of the worked examples of the instruction rules, never the model's own answer. -/

namespace Sys2Proof.Tests

open Sys2Proof.Machine

/-! ## Helpers -/

/-- Parameters as at reset, with a byte order and an alignment policy. -/
def params (bo : ByteOrder) (al : AlignPolicy) : Config :=
  { Config.atReset with byteOrder := bo, alignPolicy := al }

/-- A small state: some general registers, some floating-point registers (their tags false), some bytes of storage. -/
def small (cfg : Config) (gs : List (Reg × Doubleword)) (fs : List (Reg × Doubleword)) (ea : Doubleword)
    (bs : List Byte) : State :=
  let s := gs.foldl (fun s g => s.writeGpr g.1 g.2) { State.reset with cfg := cfg }
  let s := fs.foldl (fun s f => s.loadFpr f.1 f.2 false) s
  { s with mem := s.mem.writeBytes ea 0 bs }

/-- The outcome is a next state of which a check holds. -/
def nextWith (o : Outcome) (p : State → Bool) : Bool :=
  match o with
  | .next s => p s
  | _ => false

/-- The outcome is a fault. -/
def faultsWith (o : Outcome) (f : Fault) : Bool :=
  match o with
  | .fault g => g == f
  | _ => false

/-- The outcome is a refusal. -/
def refusesWith (o : Outcome) (r : Refusal) : Bool :=
  match o with
  | .refused q => q == r
  | _ => false

def be : Config := params .be .perform
def le : Config := params .le .perform

/-! ## Well-formedness: the one check, SH below 2^SH_BITS -/

theorem test_wellFormed_sh_in_range : (Instr.lfssx 1 3 4 3).wellFormed be = true := by decide
theorem test_illFormed_lfssx_sh_4 : (Instr.lfssx 1 3 4 4).wellFormed be = false := by decide
theorem test_illFormed_lfsusx_sh_4 : (Instr.lfsusx 1 3 4 4).wellFormed be = false := by decide
theorem test_illFormed_lfdsx_sh_31 : (Instr.lfdsx 1 3 4 31).wellFormed be = false := by decide
theorem test_illFormed_lfdusx_sh_4 : (Instr.lfdusx 1 3 4 4).wellFormed be = false := by decide
theorem test_illFormed_lfiwasx_sh_4 : (Instr.lfiwasx 1 3 4 4).wellFormed be = false := by decide
theorem test_illFormed_lfiwzsx_sh_4 : (Instr.lfiwzsx 1 3 4 4).wellFormed be = false := by decide
theorem test_invalidForm_stfsu_ra_0 : (Instr.stfsu 2 0xFFFC 0).validForm = false := by decide
theorem test_params_ok : be.ok = true ∧ le.ok = true := by decide

/-! ## Decoding: the table of section 7, and the loads under TEST-A -/

theorem test_decode_dform :
    [0xD0230008, 0xD445FFFC, 0xD8600010, 0xDC09FFF0, 0xDC00FFF0].map (decode be) =
      [.ok (.stfs 1 8 3), .ok (.stfsu 2 0xFFFC 5), .ok (.stfd 3 16 0), .ok (.stfdu 0 0xFFF0 9),
        .ok (.stfdu 0 0xFFF0 0)] := by decide

theorem test_decode_xform :
    [0x7C23252E, 0x7C45356E, 0x7C2325AE, 0x7FE955EE, 0x7CA327AE].map (decode be) =
      [.ok (.stfsx 1 3 4), .ok (.stfsux 2 5 6), .ok (.stfdx 1 3 4), .ok (.stfdux 31 9 10),
        .ok (.stfiwx 5 3 4)] := by decide

/-- P1 to P4 and the `lfdusx` of P5, words under TEST-A. -/
theorem test_decode_loads :
    [0x04232202, 0x04253204, 0x04232406, 0x04232408, 0x0443220A, 0x0423220C].map (decode be) =
      [.ok (.lfssx 1 3 4 1), .ok (.lfsusx 1 5 6 1), .ok (.lfdsx 1 3 4 2), .ok (.lfdusx 1 3 4 2),
        .ok (.lfiwasx 2 3 4 1), .ok (.lfiwzsx 1 3 4 1)] := by decide

theorem test_decode_illegal :
    [0x7C2325AF, 0x00000000, 0x7C2324AE].map (decode be) =
      [.error (.illegalInstruction 0x7C2325AF), .error (.illegalInstruction 0),
        .error (.illegalInstruction 0x7C2324AE)] := by decide

theorem test_decode_bytes_le :
    decodeBytes le [0xAE, 0x25, 0x23, 0x7C, 0x55] = .ok (.stfdx 1 3 4, [0x55]) := by decide

theorem test_decode_short : decodeBytes be [0x7C, 0x23, 0x25] = .error .shortWord := by decide

theorem test_tableWord : decodeTableWord 32 0x7C2325AE = some (.stfdx 1 3 4) := by decide

theorem test_encode_rows :
    [encode be (.stfs 1 8 3), encode be (.stfdux 31 9 10), encode be (.stfiwx 5 3 4),
      encode be (.lfiwzsx 1 3 4 0)] = [0xD0230008, 0x7FE955EE, 0x7CA327AE, 0x0423200C] := by decide

/-! ## Conversions: the tables of sections 2 and 3 -/

theorem test_double_normal :
    [0x3F800000, 0xBF800000, 0x40490FDB, 0xC2F6E979, 0xDEADBEEF, 0x00800000, 0x7F7FFFFF].map double =
      [0x3FF0000000000000, 0xBFF0000000000000, 0x400921FB60000000, 0xC05EDD2F20000000, 0xC3D5B7DDE0000000,
        0x3810000000000000, 0x47EFFFFFE0000000] := by decide

theorem test_double_denormal :
    [0x00000001, 0x00400000, 0x807FFFFF, 0x0000C03F].map double =
      [0x36A0000000000000, 0x3800000000000000, 0xB80FFFFFC0000000, 0x379807E000000000] := by decide

theorem test_double_special :
    [0x00000000, 0x80000000, 0x7F800000, 0xFF800000, 0x7FC00000, 0x7F800001, 0x7FA00000, 0xFFFFFFFF].map double =
      [0x0000000000000000, 0x8000000000000000, 0x7FF0000000000000, 0xFFF0000000000000, 0x7FF8000000000000,
        0x7FF0000020000000, 0x7FF4000000000000, 0xFFFFFFFFE0000000] := by decide

theorem test_single_select :
    [0x8000000000000000, 0x400921FB54442D18, 0xC05EDD2F1A9FBE77, 0x3FF000001FFFFFFF, 0x3FF0000020000000,
      0x7FEFFFFFFFFFFFFF, 0x47F0000000000000, 0x7FF0000000000001, 0x3810000000000000].map single =
      [some 0x80000000, some 0x40490FDA, some 0xC2F6E978, some 0x3F800000, some 0x3F800001,
        some 0x7F7FFFFF, some 0x7F800000, some 0x7F800000, some 0x00800000] := by decide

theorem test_single_denormal :
    [0x380FFFFFFFFFFFFF, 0x3800000000000000, 0x37F8000000000000, 0xB7F0000000000000, 0x36A0000000000001,
      0x36AFFFFFFFFFFFFF].map single =
      [some 0x007FFFFF, some 0x00400000, some 0x00300000, some 0x80200000, some 0x00000001,
        some 0x00000001] := by decide

theorem test_single_undefined :
    [0x3690000000000000, 0x0000000000000001, 0x8000000000000001].map single = [none, none, none] := by decide

/-! ## The loads: vectors of section 5 -/

/-- L1, both byte orders, with the tag and `pc`. -/
theorem test_lfssx_L1 :
    [be, le].map (fun c => nextWith (exec (.lfssx 1 3 4 1)
      { small c [(3, 0x1000), (4, 3)] [(1, 0)] 0x100C [0x3F, 0xC0, 0x00, 0x00] with pc := 0x100 })
      fun t => t.readFpr 1 == (if c.byteOrder = .be then 0x3FF8000000000000 else 0x379807E000000000) &&
        t.tagOf 1 && t.pc == 0x104) = [true, true] := by decide

/-- L3: index -2. -/
theorem test_lfssx_L3 :
    nextWith (exec (.lfssx 1 3 4 0)
      (small be [(3, 0x1000), (4, 0xFFFFFFFFFFFFFFFE)] [(1, 0)] 0xFFC [0x00, 0x00, 0x00, 0x01]))
      (fun t => t.readFpr 1 == 0x36A0000000000000 && t.readGpr 3 == 0x1000) = true := by decide

/-- L5. -/
theorem test_lfsusx_L5 :
    nextWith (exec (.lfsusx 2 5 6 0) (small be [(5, 0x2000), (6, 0x10)] [(2, 0)] 0x2020 [0xC2, 0xF6, 0xE9, 0x79]))
      (fun t => t.readFpr 2 == 0xC05EDD2F20000000 && t.tagOf 2 && t.readGpr 5 == 0x2020) = true := by decide

/-- L7: RA = 0 is an invalid form. The word is under TEST-A. -/
theorem test_lfsusx_L7 :
    faultsWith (exec (.lfsusx 2 0 6 0) { small be [(6, 0x10)] [] 0 [] with pc := 0x100 })
      (.invalidForm 0x04403004 0x100) = true := by decide

/-- L8: RA = 0 is a zero base. -/
theorem test_lfdsx_L8 :
    [be, le].map (fun c => nextWith (exec (.lfdsx 3 0 7 2)
      (small c [(0, 0x9999), (7, 0x201)] [] 0x1008 [0x40, 0x09, 0x21, 0xFB, 0x54, 0x44, 0x2D, 0x18]))
      fun t => t.readFpr 3 == (if c.byteOrder = .be then 0x400921FB54442D18 else 0x182D4454FB210940) &&
        !t.tagOf 3) = [true, true] := by decide

/-- L15: the access wraps past the top of the address space. -/
theorem test_lfdsx_L15 :
    nextWith (exec (.lfdsx 3 3 4 0) (small be [(3, 0xFFFFFFFFFFFFFFFC), (4, 0)] [] 0xFFFFFFFFFFFFFFFC
      [0x01, 0x02, 0x03, 0x04, 0x05, 0x06, 0x07, 0x08]))
      (fun t => t.readFpr 3 == 0x0102030405060708 && t.mem.read 3 == 0x08) = true := by decide

/-- L10: RA = RB, the greatest shift. -/
theorem test_lfdusx_L10 :
    nextWith (exec (.lfdusx 4 8 8 3)
      (small be [(8, 0x100)] [] 0x1100 [0x7F, 0xF0, 0x00, 0x00, 0x00, 0x00, 0x00, 0x01]))
      (fun t => t.readFpr 4 == 0x7FF0000000000001 && !t.tagOf 4 && t.readGpr 8 == 0x1100) = true := by decide

/-- L21: alignment is checked before validity. -/
theorem test_lfdusx_L21 :
    faultsWith (exec (.lfdusx 1 3 4 1)
      (small { params .be .fault with memMap := [] } [(3, 0x1001), (4, 3)] [] 0 [])) (.alignmentFault 0x100D) =
      true := by decide

/-- L12. -/
theorem test_lfiwasx_L12 :
    [be, le].map (fun c => nextWith (exec (.lfiwasx 5 3 4 1)
      (small c [(3, 0x1000), (4, 3)] [] 0x100C [0x80, 0x00, 0x00, 0x01]))
      fun t => t.readFpr 5 == (if c.byteOrder = .be then 0xFFFFFFFF80000001 else 0x0000000001000080) &&
        !t.tagOf 5) = [true, true] := by decide

/-- L13. -/
theorem test_lfiwzsx_L13 :
    nextWith (exec (.lfiwzsx 6 3 4 1) (small be [(3, 0x1000), (4, 3)] [] 0x100C [0x80, 0x00, 0x00, 0x01]))
      (fun t => t.readFpr 6 == 0x0000000080000001 && !t.tagOf 6) = true := by decide

/-- L18: floating point unavailable. -/
theorem test_lfssx_L18 :
    faultsWith (exec (.lfssx 1 3 4 1) { small be [(3, 0x1000), (4, 3)] [] 0 [] with fpAvail := false, pc := 0x100 })
      (.fpUnavailable 0x100) = true := by decide

/-- L20: the info is EA, not the first byte that may not be loaded. -/
theorem test_lfssx_L20 :
    faultsWith (exec (.lfssx 1 3 4 1) (small
      { be with memMap := [{ first := 0, last := 0x100D, load := true, store := true, fetch := true }] }
      [(3, 0x1000), (4, 3)] [] 0 [])) (.storageFault 0x100C .load) = true := by decide

/-! ## The stores: vectors of section 6 -/

/-- The bytes of an access. -/
def bytesAt (ea : Doubleword) (bs : List Byte) (t : State) : Bool := t.mem.readBytes ea bs.length == bs

/-- S1, both byte orders. -/
theorem test_stfs_S1 :
    [be, le].map (fun c => nextWith (exec (.stfs 1 8 3) (small c [(3, 0x1000)] [(1, 0x3FF8000000000000)] 0 []))
      (bytesAt 0x1008 (if c.byteOrder = .be then [0x3F, 0xC0, 0x00, 0x00] else [0x00, 0x00, 0xC0, 0x3F]))) =
      [true, true] := by decide

/-- S2: a negative displacement from a zero base; truncation. -/
theorem test_stfs_S2 :
    nextWith (exec (.stfs 1 0x8000 0) (small be [(0, 0x9999)] [(1, 0x400921FB54442D18)] 0 []))
      (bytesAt 0xFFFFFFFFFFFF8000 [0x40, 0x49, 0x0F, 0xDA]) = true := by decide

/-- S3: SINGLE is undefined there; the store is performed all the same, and `pc` advances. -/
theorem test_stfs_S3 :
    nextWith (exec (.stfs 1 0 3) { small be [(3, 0x1000)] [(1, 0x3690000000000000)] 0 [] with pc := 0x100 })
      (fun t => t.pc == 0x104 && t.draws == 1 && t.readFpr 1 == 0x3690000000000000) = true := by decide

/-- S6: RA = RB; the denormalizing branch. -/
theorem test_stfsx_S6 :
    nextWith (exec (.stfsx 1 3 3) (small be [(3, 0x800)] [(1, 0x380FFFFFFFFFFFFF)] 0 []))
      (bytesAt 0x1000 [0x00, 0x7F, 0xFF, 0xFF]) = true := by decide

/-- S7. -/
theorem test_stfsu_S7 :
    nextWith (exec (.stfsu 2 0xFFFC 5) (small be [(5, 0x2004)] [(2, 0xBFF0000000000000)] 0 []))
      (fun t => bytesAt 0x2000 [0xBF, 0x80, 0x00, 0x00] t && t.readGpr 5 == 0x2000) = true := by decide

/-- S8: the word is that of the vector. -/
theorem test_stfsu_S8 :
    faultsWith (exec (.stfsu 2 0xFFFC 0) (small be [] [] 0 [])) (.invalidForm 0xD440FFFC 0x100) = true := by decide

/-- S9. -/
theorem test_stfsux_S9 :
    nextWith (exec (.stfsux 2 5 6)
      (small be [(5, 0x2000), (6, 0xFFFFFFFFFFFFFFFC)] [(2, 0x36A0000000000000)] 0 []))
      (fun t => bytesAt 0x1FFC [0x00, 0x00, 0x00, 0x01] t && t.readGpr 5 == 0x1FFC) = true := by decide

/-- S11, little-endian. -/
theorem test_stfd_S11 :
    nextWith (exec (.stfd 3 16 0) (small le [] [(3, 0x7FF0000000000001)] 0 []))
      (bytesAt 0x10 [0x01, 0x00, 0x00, 0x00, 0x00, 0x00, 0xF0, 0x7F]) = true := by decide

/-- S22: misaligned, under both policies. -/
theorem test_stfd_S22 :
    nextWith (exec (.stfd 3 1 3) (small be [(3, 0x1000)] [(3, 0x0123456789ABCDEF)] 0 []))
      (bytesAt 0x1001 [0x01, 0x23, 0x45, 0x67, 0x89, 0xAB, 0xCD, 0xEF]) = true ∧
    faultsWith (exec (.stfd 3 1 3) (small (params .be .fault) [(3, 0x1000)] [(3, 0x0123456789ABCDEF)] 0 []))
      (.alignmentFault 0x1001) = true := by decide

/-- S13. -/
theorem test_stfdx_S13 :
    nextWith (exec (.stfdx 1 3 4) (small be [(3, 0x1000), (4, 0x18)] [(1, 0x400921FB54442D18)] 0 []))
      (bytesAt 0x1018 [0x40, 0x09, 0x21, 0xFB, 0x54, 0x44, 0x2D, 0x18]) = true := by decide

/-- S14. -/
theorem test_stfdu_S14 :
    nextWith (exec (.stfdu 0 0xFFF0 9) (small be [(9, 0x3010)] [(0, 0)] 0 []))
      (fun t => bytesAt 0x3000 [0, 0, 0, 0, 0, 0, 0, 0] t && t.readGpr 9 == 0x3000) = true := by decide

/-- S27: the info is EA. -/
theorem test_stfdu_S27 :
    faultsWith (exec (.stfdu 3 8 3) (small
      { be with memMap := [{ first := 0, last := 0x100B, load := true, store := true, fetch := true }] }
      [(3, 0x1000)] [] 0 [])) (.storageFault 0x1008 .store) = true := by decide

/-- S16. -/
theorem test_stfdux_S16 :
    nextWith (exec (.stfdux 31 9 10) (small be [(9, 0x3000), (10, 8)] [(31, 0xFFFFFFFFFFFFFFFF)] 0 []))
      (fun t => bytesAt 0x3008 [0xFF, 0xFF, 0xFF, 0xFF, 0xFF, 0xFF, 0xFF, 0xFF] t && t.readGpr 9 == 0x3008) =
      true := by decide

/-- S20 with twelve bytes AA around: exactly four are written. -/
theorem test_stfiwx_S20 :
    [be, le].map (fun c => nextWith (exec (.stfiwx 5 0 4)
      (small c [(4, 0x1030)] [(5, 0x0123456789ABCDEF)] 0x102C (List.replicate 12 0xAA)))
      (bytesAt 0x102C (if c.byteOrder = .be
        then [0xAA, 0xAA, 0xAA, 0xAA, 0x89, 0xAB, 0xCD, 0xEF, 0xAA, 0xAA, 0xAA, 0xAA]
        else [0xAA, 0xAA, 0xAA, 0xAA, 0xEF, 0xCD, 0xAB, 0x89, 0xAA, 0xAA, 0xAA, 0xAA]))) =
      [true, true] := by decide

/-- S19: the tag is true; a word is drawn, there is no fault, and nothing else differs from S18. -/
theorem test_stfiwx_S19 :
    nextWith (exec (.stfiwx 5 3 4)
      { small be [(3, 0x1000), (4, 0x30)] [(5, 0xFFFFFFFF80000001)] 0 [] with
        spTag := Vector.replicate 32 true })
      (fun t => t.draws == 1 && t.pc == 0x104 && t.readFpr 5 == 0xFFFFFFFF80000001 && t.tagOf 5) = true := by decide

/-! ## Fetch and step -/

/-- From reset with nothing placed, the first step is the fetch fault of 20_memory.md R52. -/
theorem test_step_reset : faultsWith (step State.reset) (.storageFault 0x100 .fetch) = true := by decide

/-- A placed word runs as the first instruction after reset. -/
theorem test_step_withFetchWord :
    nextWith (step (State.reset.withFetchWord 32 0xD8600010))
      (fun t => t.pc == 0x104 && bytesAt 0x10 [0x5A, 0x5A, 0x5A, 0x5A, 0x5A, 0x5A, 0x5A, 0x58] t) = true := by decide

/-- P6: a data load from program text sees the instruction bytes, in both byte orders. -/
theorem test_step_P6 :
    [be, le].map (fun c => nextWith (step (State.withFetchWord
      (small c [(3, 0x100), (4, 0)] [] 0 []) 32 0x0423200C))
      fun t => t.readFpr 1 == 0x0423200C && !t.tagOf 1 && t.pc == 0x104) = [true, true] := by decide

/-- A word that is no instruction (30_encoding.md R67: bit 31 is set). -/
theorem test_step_illegal :
    faultsWith (step (State.reset.withFetchWord 32 0x7C2325AF)) (.illegalInstruction 0x7C2325AF 0x100) = true := by
  decide

/-- Code that a store overwrote is refused (20_memory.md R53): the store of `pc`'s own word, then a fetch there. -/
theorem test_fetch_overwritten :
    nextWith (step (State.reset.withFetchWord 32 0xD8600100))
      (fun t => t.overwritten == [0x100] && refusesWith (step { t with pc := 0x100 }) (.overwrittenCode 0x100)) =
      true := by decide

/-- P1 ends at `EndPC` after two steps (70_reset_and_hazards.md R144). -/
theorem test_runTo_P1 :
    nextWith (runTo 0x108 3 { small be [(3, 0x2000), (4, 2), (5, 0x3000), (6, 0x10)] [] 0x2010
      [0x40, 0x09, 0x21, 0xFB, 0x54, 0x44, 0x2D, 0x18] with
      program := [(0x100, 0x04232406), (0x104, 0x7C2535AE)] })
      (fun t => t.pc == 0x108 && t.readFpr 1 == 0x400921FB54442D18 && !t.tagOf 1 &&
        bytesAt 0x3010 [0x40, 0x09, 0x21, 0xFB, 0x54, 0x44, 0x2D, 0x18] t) = true := by decide

/-! ## Witnesses: states and operands that meet all the hypotheses of an obligation together

`witness_<Name>` belongs to `Obligations.<Name>`; a statement with several clauses has one conjunct or list entry for
each, at boundary values of its range. -/

/-- The other layout: XO in bits 21:25, SH in bits 26:30, SH_BITS = 5. -/
def wideSh : Config :=
  { be with shField := { first := 26, last := 30 }, xoField := { first := 21, last := 25 } }

/-- A state that all fifteen instructions complete in: bases at 0x1000, small indexes, Program elsewhere. -/
def ready (c : Config) : State :=
  { small c [(3, 0x1000), (4, 0x20), (5, 0x2000)] [(1, 0x3FF8000000000000), (2, 0x3FF8000000000000)] 0x1040
      [0x3F, 0xC0, 0x00, 0x00] with program := [(0x100, 0x04232406), (0x1060, 0)] }

/-- The instructions with operands for `ready`, first under the greatest SH the default layout has. -/
def loads : List Instr :=
  [.lfssx 1 3 4 0, .lfsusx 1 3 4 0, .lfdsx 1 3 4 0, .lfdusx 1 3 4 3, .lfiwasx 1 3 4 0, .lfiwzsx 1 0 4 3]
def stores : List Instr :=
  [.stfs 1 8 3, .stfsx 1 3 4, .stfsu 1 0xFFFC 5, .stfsux 1 5 4, .stfd 1 16 0, .stfdx 1 3 4, .stfdu 1 0xFFF8 5,
    .stfdux 1 5 4, .stfiwx 1 3 4]

def completes (i : Instr) (s : State) : Bool := nextWith (exec i s) fun _ => true

/-- A map that permits loads and stores below 0x1044 only, and no fetch. -/
def lowMap : List Region := [{ first := 0, last := 0x1043, load := true, store := true, fetch := false }]

def fetches (s : State) (w : Word) : Bool :=
  match fetch s with
  | .next v => v == w
  | _ => false

/-- A word placed at `pc` after reset. -/
def placed (w : Nat) : State := State.reset.withFetchWord 32 w

theorem witness_DecodeInvertsEncode :
    be.ok = true ∧ (Instr.lfssx 31 0 31 3).wellFormed be = true ∧ wideSh.ok = true ∧
      (Instr.lfiwzsx 31 0 31 31).wellFormed wideSh = true := by decide

theorem witness_EncodeInvertsDecode :
    be.ok = true ∧ decode be 0x04232202 = .ok (.lfssx 1 3 4 1) ∧ decode be 0xD445FFFC = .ok (.stfsu 2 0xFFFC 5) := by
  decide

theorem witness_DecodeFollowsTheTable :
    be.ok = true ∧ 0x7C2325AE#32 &&& StoreOp.mask .stfdx = StoreOp.pattern .stfdx ∧
      LoadOp.isRowOf be 0x04232202 .lfssx = true ∧
      (StoreOp.all.all fun op => !(op.isRowOf 0x7C2325AF)) = true ∧
      (LoadOp.all.all fun op => !(LoadOp.isRowOf be 0x7C2325AF op)) = true := by decide

theorem witness_ReservedBitSetIsIllegal :
    be.ok = true ∧ (Instr.stfdx 1 3 4).wellFormed be = true ∧
      ∀ frs d ra, Instr.stfdx 1 3 4 ≠ .stfs frs d ra ∧ Instr.stfdx 1 3 4 ≠ .stfsu frs d ra ∧
        Instr.stfdx 1 3 4 ≠ .stfd frs d ra ∧ Instr.stfdx 1 3 4 ≠ .stfdu frs d ra :=
  ⟨by decide, by decide, by simp⟩

theorem witness_StepRunsTheDecodedInstruction :
    lookup (placed 0xD8600010).pc.toNat (placed 0xD8600010).program = some 0xD8600010 ∧
      (∀ k ∈ List.range 4, memValid (placed 0xD8600010).cfg
        (((placed 0xD8600010).pc.toNat + k) % 2 ^ 64) .fetch = true) ∧
      (placed 0xD8600010).pc.toNat ∉ (placed 0xD8600010).overwritten ∧
      decode (placed 0xD8600010).cfg 0xD8600010 = .ok (.stfd 3 16 0) := by decide

theorem witness_PlacedWordRunsNext :
    0xD8600010 < 2 ^ 32 ∧ decode State.reset.cfg (BitVec.ofNat 32 0xD8600010) = .ok (.stfd 3 16 0) := by decide

/-- Both clauses: 0x7C2325AF is `stfdx 1,3,4` with bit 31 set. -/
theorem witness_UndecodableWordIsIllegalInstruction :
    fetches (placed 0x7C2325AF) 0x7C2325AF = true ∧ (placed 0x7C2325AF).cfg.ok = true ∧
      decode (placed 0x7C2325AF).cfg 0x7C2325AF = .error (.illegalInstruction 0x7C2325AF) ∧
      encode (placed 0x7C2325AF).cfg (.stfdx 1 3 4) ||| 1 = 0x7C2325AF := by decide

theorem witness_StepKeepsTheInvariant :
    (placed 0xD8600010).Inv ∧ nextWith (step (placed 0xD8600010)) (fun _ => true) = true := by decide

/-- A store of eight bytes touches the word at 0x1060 from its first byte to its last, and a mark stays through a load,
and the fetch of the marked word is refused; the nearest stores below and above it mark nothing. -/
theorem witness_OverwrittenCodeIsRefused :
    [Instr.stfd 1 0x60 3, .stfd 1 0x59 3, .stfd 1 0x63 3].all (fun i => nextWith (exec i (ready be)) fun t =>
      t.overwritten == [0x1060] && nextWith (exec (.lfssx 1 3 4 0) t) (fun u => u.overwritten == [0x1060]) &&
        refusesWith (step { t with pc := 0x1060 }) (.overwrittenCode 0x1060)) = true ∧
    [Instr.stfd 1 0x58 3, .stfd 1 0x64 3].all (fun i => nextWith (exec i (ready be)) fun t =>
      t.overwritten == []) = true := by decide

/-- The clauses in order: no word at `pc`; no fetch there; no instruction; floating point unavailable; RA = 0;
misaligned; not MemValid; none of these. -/
theorem witness_FirstApplicableFaultIsReported :
    State.reset.cfg.ok = true ∧ lookup State.reset.pc.toNat State.reset.program = none ∧
      faultsWith (step { ready { be with memMap := lowMap } with pc := 0x100 }) (.storageFault 0x100 .fetch) = true ∧
      faultsWith (step { ready be with pc := 0x1060 }) (.illegalInstruction 0 0x1060) = true ∧
      faultsWith (step { placed 0xDC00FFF0 with fpAvail := false }) (.fpUnavailable 0x100) = true ∧
      faultsWith (step (placed 0xDC00FFF0)) (.invalidForm 0xDC00FFF0 0x100) = true ∧
      faultsWith (step ({ State.reset with cfg := params .be .fault }.withFetchWord 32 0xD8600011))
        (.alignmentFault 0x11) = true ∧
      faultsWith (step ({ State.reset with cfg := { be with memMap := lowMap } }.withFetchWord 32 0xD860103D))
        (.storageFault 0x103D .store) = true ∧
      nextWith (step (placed 0xD8600010)) (fun _ => true) = true := by decide

theorem witness_CompletedStepsGoStraightOn :
    (match Sys2Proof.core.run 1 (placed 0xD8600010) with | .next _ => true | _ => false) = true := by decide

/-- A run that ends at `EndPC`, and one that has taken all its steps. -/
theorem witness_RunEndsAtEndPcOrAfterAllSteps :
    nextWith (runTo 0x104 9 (placed 0xD8600010)) (fun t => t.pc == 0x104) = true ∧
      nextWith (runTo 0x200 1 (placed 0xD8600010)) (fun t => t.pc == 0x104) = true := by decide

/-- The last clause has no floating point and an undecodable word. -/
theorem witness_FpUnavailableComesFirst :
    faultsWith (exec (.stfdu 0 0xFFF0 0) { ready be with fpAvail := false }) (.fpUnavailable 0x100) = true ∧
      faultsWith (step { placed 0xDC00FFF0 with fpAvail := false }) (.fpUnavailable 0x100) = true ∧
      faultsWith (step { placed 0x7C2325AF with fpAvail := false }) (.illegalInstruction 0x7C2325AF 0x100) = true := by
  decide

/-- Every instruction is ready in `ready`, in both byte orders and under both alignment policies. -/
theorem witness_EveryInstructionCompletesWhenReady :
    [be, le, params .be .fault, params .le .fault].all (fun c =>
      (loads ++ stores).all fun i => decide ((ready c).ready i)) = true := by decide

/-- For `ParametersAreFixed`, `OnlyUpdateRaIsWritten`, `OnlyLoadTargetAndItsTagAreWritten` and `OnlyTheStoredBytesChange`
too: all fifteen complete; loads and stores, with and without update, are among them. -/
theorem witness_CompletedInstructionAdvancesPc :
    (loads ++ stores).all (fun i => completes i (ready be)) = true ∧ updateReg (.lfsusx 1 3 4 0) = some 3 ∧
      updateReg (.lfssx 1 3 4 0) = none ∧ loads.all (fun i => loadTarget i == some 1) = true ∧
      loads.all (fun i => accessKind i == .load) = true ∧ stores.all (fun i => accessKind i == .store) = true := by
  decide

theorem witness_OnlyStfiwxReadsTags : ∀ frs ra rb, Instr.stfs 1 8 3 ≠ .stfiwx frs ra rb := by simp

theorem witness_LoadsReadNoFloatingPointRegister : loads.all (fun i => loadTarget i == some 1) = true := by decide

/-- Another storage that agrees on the four bytes read, and differs below them. -/
theorem witness_LoadsReadOnlyTheirBytes :
    accessKind (.lfssx 1 3 4 0) = .load ∧ (ready be).mem.write 0x103F 0 ≠ (ready be).mem ∧
      ∀ k, k < accessBytes (.lfssx 1 3 4 0) →
        ((ready be).mem.write 0x103F 0).read (((effAddr (.lfssx 1 3 4 0) (ready be)).toNat + k) % 2 ^ 64) =
          (ready be).mem.read (((effAddr (.lfssx 1 3 4 0) (ready be)).toNat + k) % 2 ^ 64) := by decide

/-- The least and the greatest exponent field, and a denormal. -/
theorem witness_DoubleOfFiniteIsExact :
    [0x00000000, 0x807FFFFF, 0x00800000, 0xFF7FFFFF].all (fun w : Word => w.toNat / 2 ^ 23 % 2 ^ 8 < 255) = true := by
  decide

theorem witness_DoubleKeepsInfinitiesAndNans :
    [0x7F800000, 0xFFFFFFFF].all (fun w : Word => w.toNat / 2 ^ 23 % 2 ^ 8 == 255) = true := by decide

/-- Both ends of the ranges of exponents: 897, 1150; 874, 896; 1151, 2047; and a negative zero. -/
theorem witness_SingleTruncates :
    [0x3810000000000000, 0xC7EFFFFFFFFFFFFF].map (fun d : Doubleword => d.toNat / 2 ^ 52 % 2 ^ 11) = [897, 1150] ∧
      [0x36A0000000000000, 0xB80FFFFFFFFFFFFF].map (fun d : Doubleword => d.toNat / 2 ^ 52 % 2 ^ 11) = [874, 896] ∧
      [0x47F0000000000000, 0xFFF8000000000000].map (fun d : Doubleword => d.toNat / 2 ^ 52 % 2 ^ 11) = [1151, 2047] ∧
      (0x8000000000000000 : Doubleword).toNat % 2 ^ 63 = 0 := by decide

/-- For each of the six load results: the hypotheses of `Lf…`, RA not 0 in the update forms. -/
theorem witness_loads :
    (ready be).fpAvail = true ∧ (3 : Reg) ≠ 0 ∧ (ready be).allows (eaShifted (ready be) 3 4 0) 4 .load ∧
      (ready be).allows (eaShiftedUpdate (ready be) 3 4 0) 4 .load ∧
      (ready be).allows (eaShifted (ready be) 3 4 0) 8 .load ∧
      (ready be).allows (eaShiftedUpdate (ready be) 3 4 0) 8 .load := by decide

/-- For each of the nine store results: the hypotheses of `Stf…`, RA not 0 in the update forms. -/
theorem witness_stores :
    (ready be).fpAvail = true ∧ (3 : Reg) ≠ 0 ∧ (ready be).allows (eaDisp (ready be) 8 3) 4 .store ∧
      (ready be).allows (eaIndexed (ready be) 3 4) 4 .store ∧
      (ready be).allows (eaDispUpdate (ready be) 8 3) 4 .store ∧
      (ready be).allows (eaIndexedUpdate (ready be) 3 4) 4 .store ∧
      (ready be).allows (eaDisp (ready be) 8 3) 8 .store ∧ (ready be).allows (eaIndexed (ready be) 3 4) 8 .store ∧
      (ready be).allows (eaDispUpdate (ready be) 8 3) 8 .store ∧
      (ready be).allows (eaIndexedUpdate (ready be) 3 4) 8 .store := by decide

/-- The three values a stored word can come from: SINGLE, a draw, the low word. -/
theorem witness_stored_words :
    single 0x3FF8000000000000 = some 0x3FC00000 ∧ single 0x3690000000000000 = none ∧
      (ready be).tagOf 1 = false ∧ State.reset.tagOf 1 = true := by decide

theorem witness_DoublewordSurvivesStoreAndLoad :
    [be, le].all (fun c => nextWith (exec (.stfd 1 0x40 3) (ready c)) fun t => completes (.lfdsx 2 3 4 0) t &&
      eaShifted t 3 4 0 == eaDisp (ready c) 0x40 3) = true := by decide

theorem witness_WordOfStoredDoubleword :
    [be, le].all (fun c => nextWith (exec (.stfd 1 0x40 3) (ready c)) fun t => completes (.lfiwzsx 2 3 4 0) t &&
      eaShifted t 3 4 0 == eaDisp (ready c) 0x40 3) = true := by decide

theorem witness_SingleIsCopiedBitForBit :
    nextWith (exec (.lfssx 1 3 4 0) (ready be)) (completes (.stfs 1 8 3)) = true := by decide

theorem witness_IntegerWordIsCopiedBitForBit :
    nextWith (exec (.lfiwzsx 1 3 4 0) (ready be)) (completes (.stfiwx 1 5 4)) = true ∧
      nextWith (exec (.lfiwasx 1 3 4 0) (ready be)) (completes (.stfiwx 1 5 4)) = true := by decide

/-- RA not 0 is the only hypothesis; and here the instructions complete. -/
theorem witness_UpdateLoadIsLoadAndUpdate :
    (3 : Reg) ≠ 0 ∧ completes (.lfsusx 1 3 4 0) (ready be) = true ∧ completes (.lfdusx 1 3 4 0) (ready be) = true := by
  decide

theorem witness_WordLoadsDifferOnlyInWidening :
    [Instr.lfssx 1 3 4 0, .lfiwasx 1 3 4 0, .lfiwzsx 1 3 4 0].all (fun i => completes i (ready be)) = true := by decide

end Sys2Proof.Tests
end

section
/-! PROOFS. The parts of an effective address as numbers (00_scope.md R13 to R15), and the six shapes put together from
them (40_fp_load_shifted.md R81, 41_fp_store.md R101). -/

namespace Sys2Proof.Machine

@[simp] theorem toNat_baseOrZero (s : State) (ra : Reg) :
    (baseOrZero s ra).toNat = if ra = 0 then 0 else (s.readGpr ra).toNat := by
  unfold baseOrZero
  split <;> rfl

@[simp] theorem toNat_shiftedIndex (s : State) (rb : Reg) (sh : Shift) :
    (shiftedIndex s rb sh).toNat = (s.readGpr rb).toNat * 2 ^ (sh.val + 1) % 2 ^ 64 := by
  rw [shiftedIndex, BitVec.toNat_shiftLeft, Nat.shiftLeft_eq]

/-- The shift discards high bits (R14); the sum modulo 2^64 does not see that. -/
theorem toNat_add_shiftedIndex (a : Doubleword) (s : State) (rb : Reg) (sh : Shift) :
    (a + shiftedIndex s rb sh).toNat = (a.toNat + (s.readGpr rb).toNat * 2 ^ (sh.val + 1)) % 2 ^ 64 := by
  rw [BitVec.toNat_add, toNat_shiftedIndex, Nat.add_mod_mod]

/-- Sign extension (R15) keeps the signed value, read modulo 2^64. -/
@[simp] theorem natCast_toNat_sext64 {n : Nat} (v : BitVec n) : ((sext64 v).toNat : Int) = v.toInt % 2 ^ 64 := by
  rw [sext64, BitVec.signExtend, BitVec.toNat_ofInt]
  exact Int.toNat_of_nonneg (Int.emod_nonneg _ (by decide))

theorem natCast_toNat_add_sext64 {n : Nat} (a : Doubleword) (v : BitVec n) :
    ((a + sext64 v).toNat : Int) = ((a.toNat : Int) + v.toInt) % 2 ^ 64 := by
  rw [BitVec.toNat_add, Int.natCast_mod, Int.natCast_add, natCast_toNat_sext64, Nat.cast_pow,
    Nat.cast_ofNat, Int.add_emod_emod]

/-- Settles O29: the base of a form without update is (RA|0), of an update form (RA); the sums with the shifted index,
the signed displacement and the plain index are those of the lemmas above. -/
theorem effectiveAddressesInClosedForm : Obligations.EffectiveAddressesInClosedForm := by
  intro s ra rb sh d
  simp only [← toNat_baseOrZero]
  exact ⟨toNat_add_shiftedIndex _ s rb sh, toNat_add_shiftedIndex _ s rb sh, natCast_toNat_add_sext64 _ d,
    natCast_toNat_add_sext64 _ d, BitVec.toNat_add _ _, BitVec.toNat_add _ _⟩

end Sys2Proof.Machine
end

section
/-! PROOFS. What an instruction sees and leaves, as rules that the statements of 10_state.md share: EA is made of the
general registers, each field of the state after an instruction, and what a completed step and a completed run were
(10_state.md R21 to R32). -/

namespace Sys2Proof.Machine

/-! ## What the checks and the access see -/

/-- EA is computed from the general registers alone (R81, R101). -/
theorem effAddr_congr {s t : State} (h : t.gpr = s.gpr) (i : Instr) : effAddr i t = effAddr i s := by
  have hr : ∀ r, t.readGpr r = s.readGpr r := readGpr_congr h
  cases i <;> simp only [effAddr, eaShifted, eaShiftedUpdate, eaDisp, eaDispUpdate, eaIndexed, eaIndexedUpdate,
    baseOrZero, shiftedIndex, hr]

/-- `MemCheck` sees the parameters alone (20_memory.md R46). -/
theorem memCheck_congr {s t : State} (h : t.cfg = s.cfg) (ea : Doubleword) (n : Nat) (k : AccessKind) :
    memCheck t ea n k = memCheck s ea n k := by
  simp only [memCheck, h]

theorem toNat_add_four (p : Doubleword) : (p + 4).toNat = (p.toNat + 4) % 2 ^ 64 := BitVec.toNat_add p 4

@[simp] theorem mapNext_id (o : Outcome) : mapNext id o = o := by cases o <;> rfl

/-! ## The registers after an instruction -/

/-- The target of an update receives EA (10_state.md R21). -/
theorem readGpr_effect_updateReg {i : Instr} {r : Reg} (s : State) (h : updateReg i = some r) :
    (effect i s).readGpr r = effAddr i s := by
  simp [State.readGpr, effect_gpr, h]

/-- Every other general register keeps its contents (10_state.md R21). -/
theorem readGpr_effect_other {i : Instr} {r : Reg} (s : State) (h : updateReg i ≠ some r) :
    (effect i s).readGpr r = s.readGpr r := by
  cases hu : updateReg i with
  | none => exact readGpr_congr (by rw [effect_gpr, hu]) r
  | some q =>
    have hq : q.val ≠ r.val := fun e => h (by rw [hu, Fin.ext e])
    simp [State.readGpr, effect_gpr, hu, hq]

/-- Every floating-point register and tag but those of a load's target stays (10_state.md R23, R27). -/
theorem readFpr_tagOf_effect_other {i : Instr} {r : Reg} (s : State) (h : loadTarget i ≠ some r) :
    (effect i s).readFpr r = s.readFpr r ∧ (effect i s).tagOf r = s.tagOf r := by
  cases hl : loadTarget i with
  | none =>
    obtain ⟨hfpr, htag⟩ := effect_fpr_of_store i s hl
    exact ⟨readFpr_congr hfpr r, tagOf_congr htag r⟩
  | some q =>
    obtain ⟨v, b, hfpr, htag⟩ := effect_fpr_of_load i s q hl
    have hq : q.val ≠ r.val := fun e => h (by rw [hl, Fin.ext e])
    simp [State.readFpr, State.tagOf, hfpr, htag, hq]

/-- Of the loads, `lfssx` and `lfsusx` set the tag of their target and the other four clear it (10_state.md R27). -/
theorem tagOf_effect_loadTarget {i : Instr} {r : Reg} (s : State) (h : loadTarget i = some r) :
    (effect i s).tagOf r = true ↔ ∃ frt ra rb sh, i = .lfssx frt ra rb sh ∨ i = .lfsusx frt ra rb sh := by
  cases i <;> cases h
  all_goals simp [effect, State.tagOf]

/-! ## Completed instructions, steps and runs -/

/-- A completed instruction goes on to `pc + 4` and leaves Program, the parameters and the availability alone
(10_state.md R25, R29, R30). -/
theorem exec_next_fixed {i : Instr} {s t : State} (h : exec i s = .next t) :
    t.pc = s.pc + 4 ∧ t.program = s.program ∧ t.cfg = s.cfg ∧ t.fpAvail = s.fpAvail := by
  obtain ⟨-, -, -, rfl⟩ := exec_eq_next_iff.mp h
  exact ⟨effect_pc i s, effect_program i s, effect_cfg i s, effect_fpAvail i s⟩

/-- A step at a word that is fetched and decodes is the instruction it decodes to (10_state.md R32). -/
theorem step_eq_exec {s : State} {w : Word} {i : Instr} (hf : fetch s = .next w) (hd : decode s.cfg w = .ok i) :
    step s = exec i s := by
  simp only [step, hf, runWord, hd]

/-- A run of one step more is a completed step and the run from there. -/
theorem run_succ_eq_next {k : Nat} {s t : State} (h : Sys2Proof.core.run (k + 1) s = .next t) :
    ∃ u : State, step s = .next u ∧ Sys2Proof.core.run k u = .next t := by
  simp only [Host.Core.run] at h
  cases hs : Sys2Proof.core.step s with
  | next u => rw [hs] at h; exact ⟨u, hs, h⟩
  | fault f => rw [hs] at h; cases h
  | refused r => rw [hs] at h; cases h

end Sys2Proof.Machine
end

section
/-! PROOFS. The invariant (10_state.md R24, R30; 20_memory.md R52, R53): it holds at reset, a store keeps it, and so
does every instruction and every step. -/

namespace Sys2Proof.Machine

/-- The invariant sees the parameters, storage, the program text and its marks, and of `pc` its alignment only. -/
theorem Inv_congr {s t : State} (h : s.Inv) (hcfg : t.cfg = s.cfg) (hmem : t.mem = s.mem)
    (hprog : t.program = s.program) (hover : t.overwritten = s.overwritten) (hpc : t.pc.toNat % 4 = 0) : t.Inv := by
  obtain ⟨hok, hwf, htext, -, hmarks, hmirror⟩ := h
  simp only [State.Inv, State.textMirrored, hcfg, hmem, hprog, hover]
  exact ⟨hok, hwf, htext, hpc, hmarks, hmirror⟩

/-- A word of Program that a store leaves unmarked was unmarked before, and no byte of it is written
(20_memory.md R53). -/
theorem storeValue_keeps_textMirrored {s : State} (h : s.textMirrored) (ea : Doubleword) (n v : Nat) :
    (s.storeValue ea n v).textMirrored := by
  intro e he hmark k hk
  have hkey : e.1 ∈ s.program.map (·.1) := List.mem_map_of_mem he
  have hun : e.1 ∉ s.overwritten ∧ touches ea n e.1 ≠ true := by
    rw [← not_or]
    exact fun hor => hmark (mem_markOverwritten.mpr ⟨hkey, hor⟩)
  have houtside : ∀ j, j < n → e.1 + k ≠ (ea.toNat + j) % 2 ^ 64 := by
    intro j hj heq
    rw [List.mem_range] at hk
    exact hun.2 (touches_iff.mpr ⟨j, hj, by omega, by omega⟩)
  rw [storeValue_mem, read_writeBytes_outside]
  · exact h e he hun.1 k hk
  · simpa [byteAddr] using houtside

/-- A store keeps the invariant: storage stays canonical, and what it overwrites of Program it marks. -/
theorem storeValue_keeps_inv {s : State} (h : s.Inv) (ea : Doubleword) (n v : Nat) : (s.storeValue ea n v).Inv := by
  obtain ⟨hok, hwf, htext, hpc, -, hmirror⟩ := h
  exact ⟨hok, wf_writeBytes _ hwf _ _, htext, hpc, fun _ ha => (mem_markOverwritten.mp ha).1,
    storeValue_keeps_textMirrored hmirror ea n v⟩

/-- Every instruction keeps the invariant: a load touches none of what it is about but `pc`, and a store is the shared
store operation and `pc`. -/
theorem effect_keeps_inv {s : State} (h : s.Inv) (i : Instr) : (effect i s).Inv := by
  have hpc : (effect i s).pc.toNat % 4 = 0 := by
    obtain ⟨-, -, -, hpc, -, -⟩ := h
    rw [effect_pc, toNat_add_four]
    omega
  cases hl : loadTarget i with
  | some frt =>
    obtain ⟨hmem, hover, -⟩ := effect_mem_of_load i s frt hl
    exact Inv_congr h (effect_cfg i s) hmem (effect_program i s) hover hpc
  | none =>
    obtain ⟨hmem, hover⟩ := effect_mem_of_store i s hl
    exact Inv_congr (storeValue_keeps_inv h _ _ _) (effect_cfg i s) hmem (effect_program i s) hover hpc

/-- Settles O11: a completed step is the effect of the instruction at `pc`, and every effect keeps the invariant. -/
theorem stepKeepsTheInvariant : Obligations.StepKeepsTheInvariant := by
  intro s t hinv hstep
  obtain ⟨w, i, -, -, hexec⟩ := step_eq_next hstep
  obtain ⟨-, -, -, rfl⟩ := exec_eq_next_iff.mp hexec
  exact effect_keeps_inv hinv i

/-- Settles O7: storage and Program are empty at reset, so what is left is about the parameters and `pc`. -/
theorem resetMeetsTheInvariant : Obligations.ResetMeetsTheInvariant := by
  unfold Obligations.ResetMeetsTheInvariant
  decide

/-- Settles O6: `pc` and the 32 tags of the reset state, evaluated. -/
theorem resetStartsAtResetPcWithTagsTrue : Obligations.ResetStartsAtResetPcWithTagsTrue := by
  unfold Obligations.ResetStartsAtResetPcWithTagsTrue
  decide

end Sys2Proof.Machine
end

section
/-! PROOFS. What the step runs, and what every instruction leaves alone, writes and does not read (10_state.md R21 to
R32). -/

namespace Sys2Proof.Machine

/-- Settles O8: the fetch succeeds under these conditions, and its word decodes. -/
theorem stepRunsTheDecodedInstruction : Obligations.StepRunsTheDecodedInstruction := by
  intro s w i hw hvalid hmark hd
  exact step_eq_exec (fetch_eq_next_iff.mpr ⟨hw, accessValid_iff.mpr hvalid, hmark⟩) hd

/-- Settles O22: the part of `exec_next_fixed` that is not about `pc`. -/
theorem parametersAreFixed : Obligations.ParametersAreFixed := by
  intro i s t h
  exact (exec_next_fixed h).2

/-- Settles O14, by induction on the number of steps: the first adds 4 to `pc`, the others 4 each from there. -/
theorem completedStepsGoStraightOn : Obligations.CompletedStepsGoStraightOn := by
  intro k
  induction k with
  | zero =>
    rintro s t ⟨⟩
    simp
  | succ k ih =>
    intro s t h
    obtain ⟨u, hstep, hrun⟩ := run_succ_eq_next h
    obtain ⟨w, i, -, -, hexec⟩ := step_eq_next hstep
    obtain ⟨hpc, hprog, hcfg, hfp⟩ := exec_next_fixed hexec
    obtain ⟨hpc', hprog', hcfg', hfp'⟩ := ih u t hrun
    refine ⟨?_, hprog'.trans hprog, hcfg'.trans hcfg, hfp'.trans hfp⟩
    rw [hpc', hpc, BitVec.add_assoc, Nat.mul_succ, Nat.add_comm, BitVec.ofNat_add]
    rfl

/-- No instruction reads `pc` as data: from another `pc` its effect is the same but for `pc` (10_state.md R25). -/
theorem effect_withPc (i : Instr) (s : State) (p : Doubleword) :
    effect i { s with pc := p } = { effect i s with pc := p + 4 } := by
  cases i <;> simp only [effect, storeWordOrDraw_eq] <;> rfl

/-- Settles O21: the checks of the run from `p` pass as those of the run from `pc` do, and the effects agree. -/
theorem completedInstructionAdvancesPc : Obligations.CompletedInstructionAdvancesPc := by
  refine ⟨fun i s t h => ?_, fun i s t p h => ?_⟩
  · rw [(exec_next_fixed h).1, toNat_add_four]
  · obtain ⟨hfp, hform, hmem, rfl⟩ := exec_eq_next_iff.mp h
    have hea : effAddr i { s with pc := p } = effAddr i s := effAddr_congr rfl i
    refine exec_eq_next_iff.mpr ⟨hfp, hform, ?_, (effect_withPc i s p).symm⟩
    rw [hea]
    exact (memCheck_congr rfl _ _ _).trans hmem

/-- Settles O23: the state after a completed instruction is its effect. -/
theorem onlyUpdateRaIsWritten : Obligations.OnlyUpdateRaIsWritten := by
  intro i s t h
  obtain ⟨-, -, -, rfl⟩ := exec_eq_next_iff.mp h
  exact ⟨fun _ => readGpr_effect_other s, fun _ => readGpr_effect_updateReg s⟩

/-- Settles O24: the state after a completed instruction is its effect. -/
theorem onlyLoadTargetAndItsTagAreWritten : Obligations.OnlyLoadTargetAndItsTagAreWritten := by
  intro i s t h
  obtain ⟨-, -, -, rfl⟩ := exec_eq_next_iff.mp h
  exact ⟨fun _ => readFpr_tagOf_effect_other s, fun _ => tagOf_effect_loadTarget s⟩

/-- The tags aside, the effect of an instruction other than `stfiwx` does not depend on the tags: a load writes one and
reads none, and the other stores convert or copy their register whatever its tag (10_state.md R26). -/
theorem effect_withTags_eraseTags (i : Instr) (s : State) (v w : Vector Bool 32)
    (h : ∀ frs ra rb, i ≠ .stfiwx frs ra rb) :
    { effect i { s with spTag := v } with spTag := w } = { effect i s with spTag := w } := by
  cases i with
  | stfiwx frs ra rb => exact absurd rfl (h frs ra rb)
  | _ =>
    simp only [effect, storeWordOrDraw_eq]
    rfl

/-- Settles O26: the checks see no tag, and neither does the effect. -/
theorem onlyStfiwxReadsTags : Obligations.OnlyStfiwxReadsTags := by
  intro i s v h
  exact exec_congr i s _ _ _ rfl rfl rfl (effAddr_congr rfl i) (effect_withTags_eraseTags i s v _ h)

/-- A load from a state with other floating-point registers: the target receives the same value, and the others are
those of that state (10_state.md R23). -/
theorem effect_withFpr_of_load (i : Instr) (s : State) (v : Vector Doubleword 32) (frt : Reg)
    (h : loadTarget i = some frt) :
    effect i { s with fpr := v } = { effect i s with fpr := v.set frt.val ((effect i s).readFpr frt) } := by
  cases i <;> cases h
  all_goals
    simp only [effect, State.readFpr, advance_fpr, writeGpr_fpr, loadFpr_fpr, Vector.getElem_set_self]
    rfl

/-- Settles O27: the checks see no floating-point register, and the effect of a load reads none. -/
theorem loadsReadNoFloatingPointRegister : Obligations.LoadsReadNoFloatingPointRegister := by
  intro i s v frt h
  rw [← mapNext_id (exec i _)]
  exact exec_congr i s _ _ _ rfl rfl rfl (effAddr_congr rfl i) (effect_withFpr_of_load i s v frt h)

end Sys2Proof.Machine
end

section
/-! PROOFS. Rules that the statements of 20_memory.md share: the bytes of a value and of an access (R41, R43), a load in
another storage (R49), a placed word (R52), and when a step is refused (R53). -/

namespace Sys2Proof

/-! ## The bytes of a value -/

/-- A value of n + m bytes is its upper n bytes, then its lower m. -/
theorem bytesOf_add (n m v : Nat) : bytesOf (n + m) v = bytesOf n (v / 256 ^ m) ++ bytesOf m v := by
  induction m generalizing v with
  | zero => simp [bytesOf]
  | succ m ih =>
    rw [← Nat.add_assoc, bytesOf_succ, ih, bytesOf_succ m v, List.append_assoc, Nat.div_div_eq_div_mul, pow_succ']

/-- Under BE the lowest addresses hold the most significant bytes (20_memory.md R43). -/
theorem take_layOut_be (n m v : Nat) : (layOut .be (n + m) v).take n = layOut .be n (v / 256 ^ m) := by
  rw [layOut, bytesOf_add, List.take_left' (length_bytesOf n _), layOut]

/-- Under LE the lowest addresses hold the least significant bytes (20_memory.md R43). -/
theorem take_layOut_le (n m v : Nat) : (layOut .le (n + m) v).take m = layOut .le m v := by
  rw [layOut, bytesOf_add, List.reverse_append, List.take_left' (by simp), layOut]

/-- Which of n bytes at ascending addresses is byte k of the value, the most significant being byte 0
(20_memory.md R43). -/
def bytePosition (bo : ByteOrder) (n k : Nat) : Nat :=
  match bo with
  | .be => k
  | .le => n - 1 - k

theorem bytePosition_lt (bo : ByteOrder) {n k : Nat} (h : k < n) : bytePosition bo n k < n := by
  cases bo
  · exact h
  · exact (Nat.sub_le _ _).trans_lt (by omega)

/-- Byte k of an assembled value is the byte at that position. -/
theorem ofNat_assemble_div (bo : ByteOrder) (bs : List Byte) (k : Nat) (h : k < bs.length) :
    BitVec.ofNat 8 (assemble bo bs / 256 ^ (bs.length - 1 - k)) =
      bs[bytePosition bo bs.length k]'(bytePosition_lt bo h) := by
  cases bo
  · exact ofNat_valueOf_div bs k h
  · have hrev := ofNat_valueOf_div bs.reverse k (by simpa using h)
    simpa [assemble, bytePosition] using hrev

/-- The decoder does not see the map of valid storage (30_encoding.md R66). -/
theorem decode_withMemMap (cfg : Config) (mm : List Region) (w : Word) :
    decode { cfg with memMap := mm } w = decode cfg w := rfl

end Sys2Proof

namespace Sys2Proof.Machine

/-! ## The bytes of an access -/

@[simp] theorem length_readBytes (m : Memory) (ea : Doubleword) (n : Nat) : (m.readBytes ea n).length = n := by
  simp [Memory.readBytes]

/-- A shorter access at the same address reads the first bytes of a longer one (20_memory.md R41). -/
theorem take_readBytes (m : Memory) (ea : Doubleword) {n k : Nat} (h : k ≤ n) :
    (m.readBytes ea n).take k = m.readBytes ea k := by
  rw [Memory.readBytes, ← List.map_take, List.take_range, Nat.min_eq_left h, Memory.readBytes]

theorem readBytes_congr {m m' : Memory} {ea : Doubleword} {n : Nat}
    (h : ∀ k, k < n → m'.read (byteAddr ea k) = m.read (byteAddr ea k)) : m'.readBytes ea n = m.readBytes ea n :=
  List.map_congr_left fun k hk => h k (List.mem_range.mp hk)

/-- Byte k of the value read from n bytes (20_memory.md R41, R43). -/
theorem ofNat_assemble_readBytes_div (bo : ByteOrder) (m : Memory) (ea : Doubleword) {n k : Nat} (h : k < n) :
    BitVec.ofNat 8 (assemble bo (m.readBytes ea n) / 256 ^ (n - 1 - k)) =
      m.read (byteAddr ea (bytePosition bo n k)) := by
  have hbyte := ofNat_assemble_div bo (m.readBytes ea n) k (by simpa using h)
  simpa [Memory.readBytes] using hbyte

/-- The word at the address of a stored doubleword is assembled from the first four of its bytes (20_memory.md R43). -/
theorem toNat_loadWord_storeDoubleword (s : State) (ea d : Doubleword) :
    ((s.storeDoubleword ea d).loadWord ea).toNat =
      assemble s.cfg.byteOrder ((layOut s.cfg.byteOrder 8 d.toNat).take 4) := by
  rw [loadWord_toNat, ← take_readBytes _ _ (show 4 ≤ 8 by decide), storeDoubleword_cfg, State.storeDoubleword,
    readBytes_storeValue _ _ _ _ (by decide)]

/-- That word is the most significant half under BE (20_memory.md R44). -/
theorem toNat_loadWord_storeDoubleword_be {s : State} (hbo : s.cfg.byteOrder = .be) (ea d : Doubleword) :
    ((s.storeDoubleword ea d).loadWord ea).toNat = d.toNat / 2 ^ 32 := by
  have := d.isLt
  rw [toNat_loadWord_storeDoubleword, hbo, take_layOut_be 4 4, assemble_layOut]
  omega

/-- That word is the least significant half under LE (20_memory.md R44). -/
theorem toNat_loadWord_storeDoubleword_le {s : State} (hbo : s.cfg.byteOrder = .le) (ea d : Doubleword) :
    ((s.storeDoubleword ea d).loadWord ea).toNat = d.toNat % 2 ^ 32 := by
  rw [toNat_loadWord_storeDoubleword, hbo, take_layOut_le 4 4, assemble_layOut]
  omega

/-- `lfiwzsx` widens the word at EA with zeros (40_fp_load_shifted.md R89). -/
theorem toNat_readFpr_effect_lfiwzsx (frt ra rb : Reg) (sh : Shift) (s : State) :
    ((effect (.lfiwzsx frt ra rb sh) s).readFpr frt).toNat = (s.loadWord (eaShifted s ra rb sh)).toNat := by
  have htarget : (effect (.lfiwzsx frt ra rb sh) s).readFpr frt = zext64 (s.loadWord (eaShifted s ra rb sh)) :=
    readFpr_loadFpr_self s frt _ false
  rw [htarget, zext64, BitVec.toNat_setWidth_of_le (by decide)]

/-! ## A load in another storage -/

/-- A load from a storage with the same bytes at EA writes the same registers (20_memory.md R41, R49). -/
theorem effect_withMem_of_load {i : Instr} {s : State} {m : Memory} (hload : accessKind i = .load)
    (h : m.readBytes (effAddr i s) (accessBytes i) = s.mem.readBytes (effAddr i s) (accessBytes i)) :
    effect i { s with mem := m } = { effect i s with mem := m } := by
  obtain ⟨frt, hl⟩ := accessKind_eq_load_iff.mp hload
  have hea : effAddr i { s with mem := m } = effAddr i s := effAddr_congr rfl i
  cases i <;> cases hl
  all_goals
    simp only [accessBytes] at h
    simp only [effect, hea, State.loadWord, State.loadDoubleword, h]
    rfl

/-! ## The marks of overwritten code -/

/-- No instruction removes a mark from a word of Program (20_memory.md R53). -/
theorem effect_keeps_mark {i : Instr} {s : State} {a : Nat} (hprog : a ∈ s.program.map (·.1))
    (hmark : a ∈ s.overwritten) : a ∈ (effect i s).overwritten := by
  cases hl : loadTarget i with
  | some frt =>
    obtain ⟨-, hover, -⟩ := effect_mem_of_load i s frt hl
    rwa [hover]
  | none =>
    obtain ⟨-, hover⟩ := effect_mem_of_store i s hl
    rw [hover]
    exact mem_markOverwritten.mpr ⟨hprog, .inl hmark⟩

/-- Only the fetch refuses: a fetched word is run, and no instruction is refused. -/
theorem step_eq_refused_iff {s : State} {r : Refusal} : step s = .refused r ↔ fetch s = .refused r := by
  unfold step
  cases fetch s with
  | next w =>
    rcases runWord_cases exec w s with ⟨i, -, hr⟩ | ⟨e, -, hr⟩
    · simp [hr, exec_ne_refused]
    · simp [hr]
  | fault f => simp
  | refused q => simp

/-! ## A placed word -/

theorem allowFetch_eq_withMemMap (cfg : Config) (pc : Doubleword) :
    ∃ mm, allowFetch cfg pc = { cfg with memMap := mm } := by
  unfold allowFetch
  split
  · exact ⟨cfg.memMap, rfl⟩
  · exact ⟨_, rfl⟩

/-- Where the map did not permit the fetch, one region for each of the four bytes does now. -/
theorem accessValid_allowFetch (cfg : Config) (pc : Doubleword) :
    accessValid (allowFetch cfg pc) pc 4 .fetch = true := by
  unfold allowFetch
  split
  · assumption
  · rw [accessValid, List.all_eq_true]
    intro k hk
    rw [memValid, List.any_append, Bool.or_eq_true, List.any_eq_true (l := List.map _ _)]
    exact .inr ⟨_, List.mem_map_of_mem hk, by simp [Region.permits]⟩

/-- A placed word is what the next fetch reads (20_memory.md R52). -/
theorem fetch_placeWord (s : State) (w : Word) : fetch (placeWord s w) = .next w :=
  fetch_eq_next_iff.mpr ⟨lookup_put_self _ _ _, accessValid_allowFetch s.cfg s.pc, by simp [placeWord]⟩

theorem decode_placeWord (s : State) (w v : Word) : decode (placeWord s w).cfg v = decode s.cfg v := by
  obtain ⟨mm, hcfg⟩ := allowFetch_eq_withMemMap s.cfg s.pc
  simp only [placeWord, hcfg, decode_withMemMap]

theorem withFetchWord_eq (s : State) {w : Nat} (hw : w < 2 ^ 32) :
    s.withFetchWord 32 w = placeWord s (BitVec.ofNat 32 w) := by
  rw [State.withFetchWord, Nat.mod_eq_of_lt hw]

end Sys2Proof.Machine
end

section
/-! PROOFS. The statements of 20_memory.md: loads (R41 to R44, R49), a placed word (R52), overwritten code (R53). -/

namespace Sys2Proof.Machine

/-- Settles O30: the word and the doubleword loaded are assembled from the 4 and the 8 bytes at EA. -/
theorem loadedValueIsMadeOfTheBytes : Obligations.LoadedValueIsMadeOfTheBytes := by
  intro s ea
  refine ⟨fun k hk => ?_, fun k hk => ?_⟩
  · rw [loadWord_toNat]
    exact ofNat_assemble_readBytes_div _ s.mem ea hk
  · rw [loadDoubleword_toNat]
    exact ofNat_assemble_readBytes_div _ s.mem ea hk

/-- Settles O28: the checks see no storage, and the effect of a load sees the bytes at EA alone. -/
theorem loadsReadOnlyTheirBytes : Obligations.LoadsReadOnlyTheirBytes := by
  intro i s m hload h
  rw [← mapNext_id (exec i _)]
  exact exec_congr i s _ _ _ rfl rfl rfl (effAddr_congr rfl i) (effect_withMem_of_load hload (readBytes_congr h))

/-- Settles O52: the word loaded is read from the storage that `stfd` left, in the same byte order. -/
theorem wordOfStoredDoubleword : Obligations.WordOfStoredDoubleword := by
  intro frs d ra frt ra' rb sh s t u hst hld hea
  obtain ⟨-, -, -, rfl⟩ := exec_eq_next_iff.mp hst
  obtain ⟨-, -, -, rfl⟩ := exec_eq_next_iff.mp hld
  have hword : ((effect (.lfiwzsx frt ra' rb sh) (effect (.stfd frs d ra) s)).readFpr frt).toNat =
      ((s.storeDoubleword (eaDisp s d ra) (s.readFpr frs)).loadWord (eaDisp s d ra)).toNat := by
    rw [toNat_readFpr_effect_lfiwzsx, hea]
    rfl
  cases hbo : s.cfg.byteOrder with
  | be => exact hword.trans (toNat_loadWord_storeDoubleword_be hbo _ _)
  | le => exact hword.trans (toNat_loadWord_storeDoubleword_le hbo _ _)

/-- Settles O9: the placed word is fetched, decodes as before, and is run; placing it touches no register. -/
theorem placedWordRunsNext : Obligations.PlacedWordRunsNext := by
  intro s w i hw hd
  rw [withFetchWord_eq s hw]
  exact ⟨step_eq_exec (fetch_placeWord s _) ((decode_placeWord s _ _).trans hd), rfl, rfl, rfl, rfl, rfl⟩

/-- Settles O12: the state after a completed instruction is its effect, and a step is refused when its fetch is. -/
theorem overwrittenCodeIsRefused : Obligations.OverwrittenCodeIsRefused := by
  refine ⟨fun i s t h hstore => ?_, fun i s t h hload => ?_, fun i s t a h hprog hmark => ?_, fun s r => ?_⟩
  · obtain ⟨-, -, -, rfl⟩ := exec_eq_next_iff.mp h
    obtain ⟨-, hover⟩ := effect_mem_of_store i s (accessKind_eq_store_iff.mp hstore)
    refine ⟨effect_program i s, fun a => ?_⟩
    rw [hover, mem_markOverwritten, touches_iff]
  · obtain ⟨-, -, -, rfl⟩ := exec_eq_next_iff.mp h
    obtain ⟨frt, hl⟩ := accessKind_eq_load_iff.mp hload
    obtain ⟨-, hover, -⟩ := effect_mem_of_load i s frt hl
    exact ⟨effect_program i s, hover⟩
  · obtain ⟨-, -, -, rfl⟩ := exec_eq_next_iff.mp h
    exact effect_keeps_mark hprog hmark
  · rw [step_eq_refused_iff, fetch_eq_refused_iff, accessValid_iff]

end Sys2Proof.Machine
end

section
/-! PROOFS. The words of the fifteen instructions, form by form: a word is the word of an instruction exactly when the
row of the instruction matches it and its operand fields are the operands (30_encoding.md R61, R62). -/

namespace Sys2Proof

/-! ## The instructions as rows of the opcode table -/

/-- A store of the given row: a D-Form row has no RB, an X-Form row has no D. -/
def StoreOp.instr (op : StoreOp) (frs ra rb : Reg) (d : BitVec 16) : Instr :=
  match op with
  | .stfs => .stfs frs d ra
  | .stfsu => .stfsu frs d ra
  | .stfd => .stfd frs d ra
  | .stfdu => .stfdu frs d ra
  | .stfsx => .stfsx frs ra rb
  | .stfsux => .stfsux frs ra rb
  | .stfdx => .stfdx frs ra rb
  | .stfdux => .stfdux frs ra rb
  | .stfiwx => .stfiwx frs ra rb

theorem StoreOp.instrOf_eq (op : StoreOp) (w : Word) :
    op.instrOf w = op.instr (regOf (wordField w ⟨6, 10⟩)) (regOf (wordField w ⟨11, 15⟩))
      (regOf (wordField w ⟨16, 20⟩)) (BitVec.ofNat 16 (wordField w ⟨16, 31⟩)) := by
  cases op <;> rfl

/-- Every instruction is a store of one of the nine rows or a load of one of the six. -/
theorem Instr.exists_row (i : Instr) :
    (∃ (op : StoreOp) (frs ra rb : Reg) (d : BitVec 16), i = op.instr frs ra rb d) ∨
      ∃ (op : LoadOp) (frt ra rb : Reg) (sh : Shift), i = op.instr frt ra rb sh := by
  cases i with
  | lfssx frt ra rb sh => exact .inr ⟨.lfssx, frt, ra, rb, sh, rfl⟩
  | lfsusx frt ra rb sh => exact .inr ⟨.lfsusx, frt, ra, rb, sh, rfl⟩
  | lfdsx frt ra rb sh => exact .inr ⟨.lfdsx, frt, ra, rb, sh, rfl⟩
  | lfdusx frt ra rb sh => exact .inr ⟨.lfdusx, frt, ra, rb, sh, rfl⟩
  | lfiwasx frt ra rb sh => exact .inr ⟨.lfiwasx, frt, ra, rb, sh, rfl⟩
  | lfiwzsx frt ra rb sh => exact .inr ⟨.lfiwzsx, frt, ra, rb, sh, rfl⟩
  | stfs frs d ra => exact .inl ⟨.stfs, frs, ra, 0, d, rfl⟩
  | stfsx frs ra rb => exact .inl ⟨.stfsx, frs, ra, rb, 0, rfl⟩
  | stfsu frs d ra => exact .inl ⟨.stfsu, frs, ra, 0, d, rfl⟩
  | stfsux frs ra rb => exact .inl ⟨.stfsux, frs, ra, rb, 0, rfl⟩
  | stfd frs d ra => exact .inl ⟨.stfd, frs, ra, 0, d, rfl⟩
  | stfdx frs ra rb => exact .inl ⟨.stfdx, frs, ra, rb, 0, rfl⟩
  | stfdu frs d ra => exact .inl ⟨.stfdu, frs, ra, 0, d, rfl⟩
  | stfdux frs ra rb => exact .inl ⟨.stfdux, frs, ra, rb, 0, rfl⟩
  | stfiwx frs ra rb => exact .inl ⟨.stfiwx, frs, ra, rb, 0, rfl⟩

@[simp] theorem wellFormed_storeInstr (cfg : Config) (op : StoreOp) (frs ra rb : Reg) (d : BitVec 16) :
    (op.instr frs ra rb d).wellFormed cfg = true := by
  cases op <;> rfl

@[simp] theorem wellFormed_loadInstr (cfg : Config) (op : LoadOp) (frt ra rb : Reg) (sh : Shift) :
    (op.instr frt ra rb sh).wellFormed cfg = decide (sh.val < 2 ^ cfg.shBits) := by
  cases op <;> rfl

theorem encode_loadInstr (cfg : Config) (op : LoadOp) (frt ra rb : Reg) (sh : Shift) :
    encode cfg (op.instr frt ra rb sh) = BitVec.ofNat 32 (encodeShifted cfg op frt ra rb sh) := by
  cases op <;> rfl

theorem LoadOp.instr_inj (op : LoadOp) {frt ra rb frt' ra' rb' : Reg} {sh sh' : Shift} :
    op.instr frt ra rb sh = op.instr frt' ra' rb' sh' ↔ frt = frt' ∧ ra = ra' ∧ rb = rb' ∧ sh = sh' := by
  cases op <;> simp [LoadOp.instr]

/-! ## Operand fields (30_encoding.md R65) -/

theorem regOf_eq_iff (n : Nat) (r : Reg) : regOf n = r ↔ n % 32 = r.val := by
  simp [regOf, Fin.ext_iff]

theorem regOf_6_10_eq_iff (w : Word) (r : Reg) :
    regOf (wordField w ⟨6, 10⟩) = r ↔ w.toNat / 2 ^ 21 % 32 = r.val := by
  simp [regOf_eq_iff, wordField, slice]

theorem regOf_11_15_eq_iff (w : Word) (r : Reg) :
    regOf (wordField w ⟨11, 15⟩) = r ↔ w.toNat / 2 ^ 16 % 32 = r.val := by
  simp [regOf_eq_iff, wordField, slice]

theorem regOf_16_20_eq_iff (w : Word) (r : Reg) :
    regOf (wordField w ⟨16, 20⟩) = r ↔ w.toNat / 2 ^ 11 % 32 = r.val := by
  simp [regOf_eq_iff, wordField, slice]

theorem ofNat_16_31_eq_iff (w : Word) (d : BitVec 16) :
    BitVec.ofNat 16 (wordField w ⟨16, 31⟩) = d ↔ w.toNat % 2 ^ 16 = d.toNat := by
  simp [← BitVec.toNat_inj, wordField, slice]

theorem ofNat_eq_word_iff {n : Nat} (h : n < 2 ^ 32) (w : Word) : BitVec.ofNat 32 n = w ↔ n = w.toNat := by
  rw [← BitVec.toNat_inj, BitVec.toNat_ofNat, Nat.mod_eq_of_lt h]

/-! ## The three forms -/

/-- D-Form (R61). -/
theorem encodeD_eq_iff {po : Nat} (hpo : po < 64) (frs : Reg) (d : BitVec 16) (ra : Reg) (w : Word) :
    BitVec.ofNat 32 (encodeD po frs d ra) = w ↔ w.toNat / 2 ^ 26 = po ∧ regOf (wordField w ⟨6, 10⟩) = frs ∧
      BitVec.ofNat 16 (wordField w ⟨16, 31⟩) = d ∧ regOf (wordField w ⟨11, 15⟩) = ra := by
  rw [ofNat_eq_word_iff (encodeD_lt frs d ra hpo), regOf_6_10_eq_iff, regOf_11_15_eq_iff, ofNat_16_31_eq_iff, encodeD]
  omega

/-- The number of an X-Form word (R62) is its PO, its three registers and its low eleven bits. -/
theorem xForm_eq_iff (po low : Nat) (hlow : low < 2 ^ 11) (r ra rb : Reg) (w : Word) :
    po * 2 ^ 26 + r.val * 2 ^ 21 + ra.val * 2 ^ 16 + rb.val * 2 ^ 11 + low = w.toNat ↔
      (w.toNat / 2 ^ 26 = po ∧ w.toNat % 2 ^ 11 = low) ∧ regOf (wordField w ⟨6, 10⟩) = r ∧
        regOf (wordField w ⟨11, 15⟩) = ra ∧ regOf (wordField w ⟨16, 20⟩) = rb := by
  rw [regOf_6_10_eq_iff, regOf_11_15_eq_iff, regOf_16_20_eq_iff]
  omega

/-- Plain X-Form (R62 (a)). -/
theorem encodeX_eq_iff {po xo : Nat} (hpo : po < 64) (hxo : xo < 1024) (frs ra rb : Reg) (w : Word) :
    BitVec.ofNat 32 (encodeX po xo frs ra rb) = w ↔ (w.toNat / 2 ^ 26 = po ∧ w.toNat % 2 ^ 11 = xo * 2) ∧
      regOf (wordField w ⟨6, 10⟩) = frs ∧ regOf (wordField w ⟨11, 15⟩) = ra ∧
        regOf (wordField w ⟨16, 20⟩) = rb := by
  rw [ofNat_eq_word_iff (encodeX_lt frs ra rb hpo hxo)]
  exact xForm_eq_iff po (xo * 2) (by omega) frs ra rb w

theorem shBits_le_five {cfg : Config} (h : cfg.layoutOk = true) : cfg.shBits ≤ 5 := by
  obtain ⟨n, -, hn, hb, -⟩ := layout_cases h
  exact hb ▸ hn

/-- SH has at most five bits (R7), so the field of a word is the operand as it is. -/
theorem val_shOf {cfg : Config} (h : cfg.layoutOk = true) (w : Word) :
    (Fin.ofNat 32 (wordField w cfg.shField) : Shift).val = wordField w cfg.shField := by
  obtain ⟨-, hs, -⟩ := plainXo_wordField h w
  have hle : 2 ^ cfg.shBits ≤ 2 ^ 5 := Nat.pow_le_pow_right (by omega) (shBits_le_five h)
  exact Nat.mod_eq_of_lt (by omega)

/-- SH, XO and the reserved bit 31 are all of the low eleven bits (R62 (b)). -/
theorem low_eq_place_iff {cfg : Config} (h : cfg.layoutOk = true) {sh xo : Nat} (hs : sh < 2 ^ cfg.shBits)
    (hx : xo < 2 ^ cfg.xoField.width) (w : Word) :
    w.toNat % 2 ^ 11 = cfg.shField.place sh + cfg.xoField.place xo ↔
      wordField w cfg.shField = sh ∧ wordField w cfg.xoField = xo ∧ w.toNat % 2 = 0 := by
  obtain ⟨-, heven⟩ := place_lt h sh xo hs hx
  constructor
  · intro hlow
    obtain ⟨hsh, hxo⟩ := slice_place h w.toNat sh xo hs hx hlow
    exact ⟨hsh, hxo, by omega⟩
  · rintro ⟨rfl, rfl, hbit⟩
    obtain ⟨hplain, -⟩ := plainXo_wordField h w
    unfold Config.plainXo at hplain
    omega

/-- X-Form with SH (R62 (b)). -/
theorem encodeShifted_eq_iff {cfg : Config} (hc : cfg.ok = true) (op : LoadOp) (frt ra rb : Reg) {sh : Shift}
    (hs : sh.val < 2 ^ cfg.shBits) (w : Word) :
    BitVec.ofNat 32 (encodeShifted cfg op frt ra rb sh) = w ↔ LoadOp.isRowOf cfg w op = true ∧
      regOf (wordField w ⟨6, 10⟩) = frt ∧ regOf (wordField w ⟨11, 15⟩) = ra ∧ regOf (wordField w ⟨16, 20⟩) = rb ∧
        Fin.ofNat 32 (wordField w cfg.shField) = sh := by
  obtain ⟨hl, -, hop⟩ := ok_parts hc
  obtain ⟨hx, -⟩ := opcodeOk_parts (hop op)
  obtain ⟨hlow, -⟩ := place_lt hl _ _ hs hx
  rw [ofNat_eq_word_iff (encodeShifted_parts hc op frt ra rb sh hs).1, encodeShifted, Nat.add_assoc _ (Field.place _ _),
    xForm_eq_iff _ _ hlow, low_eq_place_iff hl hs hx, loadRow_iff, Fin.ext_iff (b := sh), val_shOf hl]
  tauto

/-! ## A word is an instruction's word: the row matches and the operands are read back -/

theorem encode_storeInstr_eq_iff (cfg : Config) (op : StoreOp) (frs ra rb : Reg) (d : BitVec 16) (w : Word) :
    encode cfg (op.instr frs ra rb d) = w ↔ w &&& op.mask = op.pattern ∧ op.instrOf w = op.instr frs ra rb d := by
  have hD {po : Nat} (hpo : po < 64) := encodeD_eq_iff hpo frs d ra w
  have hX {xo : Nat} (hxo : xo < 1024) := encodeX_eq_iff (po := 31) (by decide) hxo frs ra rb w
  rw [storeRow_iff]
  cases op <;> simp only [StoreOp.instr, StoreOp.instrOf, Instr.stfs.injEq, Instr.stfsu.injEq, Instr.stfd.injEq,
    Instr.stfdu.injEq, Instr.stfsx.injEq, Instr.stfsux.injEq, Instr.stfdx.injEq, Instr.stfdux.injEq,
    Instr.stfiwx.injEq]
  case stfs | stfsu | stfd | stfdu => exact hD (by decide)
  case stfsx | stfsux | stfdx | stfdux | stfiwx => exact hX (by decide)

theorem encode_loadInstr_eq_iff {cfg : Config} (hc : cfg.ok = true) (op : LoadOp) (frt ra rb : Reg) {sh : Shift}
    (hs : sh.val < 2 ^ cfg.shBits) (w : Word) :
    encode cfg (op.instr frt ra rb sh) = w ↔
      LoadOp.isRowOf cfg w op = true ∧ op.instrOf cfg w = op.instr frt ra rb sh := by
  rw [encode_loadInstr, encodeShifted_eq_iff hc op frt ra rb hs, LoadOp.instrOf, LoadOp.instr_inj]

end Sys2Proof
end

section
/-! PROOFS. The rows of the opcode table exclude each other (30_encoding.md R63, R64), so the row that matches a word is
the one its decoding finds (R66). -/

namespace Sys2Proof

/-! ## At most one row matches -/

/-- The store row of a primary opcode and the eleven low bits of a word, in the X-Form twice the XO (30_encoding.md
R64). -/
def StoreOp.ofOpcode : Nat → Nat → Option StoreOp
  | 52, _ => some .stfs
  | 53, _ => some .stfsu
  | 54, _ => some .stfd
  | 55, _ => some .stfdu
  | 31, 1326 => some .stfsx
  | 31, 1390 => some .stfsux
  | 31, 1454 => some .stfdx
  | 31, 1518 => some .stfdux
  | 31, 1966 => some .stfiwx
  | _, _ => none

theorem ofOpcode_of_storeRow {op : StoreOp} {w : Word} (h : w &&& op.mask = op.pattern) :
    StoreOp.ofOpcode (w.toNat / 2 ^ 26) (w.toNat % 2 ^ 11) = some op := by
  rw [storeRow_iff] at h
  cases op
  case stfs | stfsu | stfd | stfdu => rw [h]; rfl
  case stfsx | stfsux | stfdx | stfdux | stfiwx => rw [h.1, h.2]; rfl

theorem storeRow_unique {op op' : StoreOp} {w : Word} (h : w &&& op.mask = op.pattern)
    (h' : w &&& op'.mask = op'.pattern) : op = op' :=
  Option.some.inj ((ofOpcode_of_storeRow h).symm.trans (ofOpcode_of_storeRow h'))

/-- A store row fixes a primary opcode of its own, or PO = 31, an XO of the table and bit 31 zero. -/
theorem storeRow_opcode {op : StoreOp} {w : Word} (h : w &&& op.mask = op.pattern) :
    w.toNat / 2 ^ 26 ∈ [52, 53, 54, 55] ∨
      w.toNat / 2 ^ 26 = 31 ∧ w.toNat / 2 % 2 ^ 10 ∈ storeXos ∧ w.toNat % 2 = 0 := by
  rw [storeRow_iff] at h
  cases op
  case stfs | stfsu | stfd | stfdu =>
    left
    rw [h]
    decide
  case stfsx | stfsux | stfdx | stfdux | stfiwx =>
    obtain ⟨hpo, hlow⟩ := h
    refine .inr ⟨hpo, ?_, by omega⟩
    rw [show w.toNat / 2 % 2 ^ 10 = w.toNat % 2 ^ 11 / 2 by omega, hlow]
    decide

theorem loadRow_unique {cfg : Config} (hc : cfg.ok = true) {op op' : LoadOp} {w : Word}
    (h : LoadOp.isRowOf cfg w op = true) (h' : LoadOp.isRowOf cfg w op' = true) : op = op' := by
  obtain ⟨-, hinj, -⟩ := ok_parts hc
  obtain ⟨hpo, hxo, -⟩ := loadRow_iff.mp h
  obtain ⟨hpo', hxo', -⟩ := loadRow_iff.mp h'
  apply hinj
  rw [Opcode.mk.injEq, ← BitVec.toNat_inj]
  exact ⟨hpo.symm.trans hpo', hxo.symm.trans hxo'⟩

/-- A store row is no load row: R63 keeps the loads' opcodes away from the primary opcodes of the D-Form stores and,
under PO = 31, from their XO for every SH. -/
theorem loadRow_eq_false_of_storeRow {cfg : Config} (hc : cfg.ok = true) {op : StoreOp} {w : Word}
    (h : w &&& op.mask = op.pattern) (op' : LoadOp) : LoadOp.isRowOf cfg w op' = false := by
  rw [← Bool.not_eq_true]
  intro h'
  obtain ⟨hl, -, hop⟩ := ok_parts hc
  obtain ⟨-, hpo, hxos⟩ := opcodeOk_parts (hop op')
  obtain ⟨hplain, hsh, -⟩ := plainXo_wordField hl w
  obtain ⟨hwpo, hwxo, -⟩ := loadRow_iff.mp h'
  rw [← hwpo] at hpo hxos
  rw [← hwxo] at hxos
  obtain hd | ⟨hx, hxo, -⟩ := storeRow_opcode h
  · exact hpo hd
  · exact hxos hx _ hsh (hplain ▸ hxo)

/-! ## Decoding finds the row that matches -/

theorem find?_eq_some_of_unique {α : Type} {l : List α} {p : α → Bool} {a : α} (hl : a ∈ l) (ha : p a = true)
    (huniq : ∀ b, p b = true → b = a) : l.find? p = some a := by
  cases hf : l.find? p with
  | none => exact absurd ha (List.find?_eq_none.mp hf a hl)
  | some b => rw [huniq b (List.find?_some hf)]

theorem StoreOp.mem_all (op : StoreOp) : op ∈ StoreOp.all := by
  cases op <;> decide

theorem LoadOp.mem_all (op : LoadOp) : op ∈ LoadOp.all := by
  cases op <;> decide

theorem isRowOf_iff_storeRow {op : StoreOp} {w : Word} : op.isRowOf w = true ↔ w &&& op.mask = op.pattern := by
  rw [StoreOp.isRowOf, beq_iff_eq]

theorem decode_of_storeRow (cfg : Config) {op : StoreOp} {w : Word} (h : w &&& op.mask = op.pattern) :
    decode cfg w = .ok (op.instrOf w) := by
  have hf : StoreOp.all.find? (fun op => op.isRowOf w) = some op :=
    find?_eq_some_of_unique op.mem_all (isRowOf_iff_storeRow.mpr h) fun _ hb =>
      storeRow_unique (isRowOf_iff_storeRow.mp hb) h
  rw [decode, hf]

theorem decode_of_loadRow {cfg : Config} (hc : cfg.ok = true) {op : LoadOp} {w : Word}
    (h : LoadOp.isRowOf cfg w op = true) : decode cfg w = .ok (op.instrOf cfg w) := by
  have hs : StoreOp.all.find? (fun op => op.isRowOf w) = none := by
    refine List.find?_eq_none.mpr fun o _ ho => ?_
    exact absurd h (Bool.eq_false_iff.mp (loadRow_eq_false_of_storeRow hc (isRowOf_iff_storeRow.mp ho) op))
  have hf : LoadOp.all.find? (LoadOp.isRowOf cfg w) = some op :=
    find?_eq_some_of_unique op.mem_all h fun _ hb => loadRow_unique hc hb h
  rw [decode, hs]
  simp only [hf]

/-! ## The reserved bit 31 -/

theorem or_one_div_two_pow (n k : Nat) : (n ||| 1) / 2 ^ (k + 1) = n / 2 ^ (k + 1) := by
  rw [Nat.or_div_two_pow, Nat.div_eq_of_lt (Nat.one_lt_two_pow k.succ_ne_zero), Nat.or_zero]

/-- An instruction other than the four D-Form stores has none of their primary opcodes (R63, R64). -/
theorem po_encode_of_xForm {cfg : Config} (hc : cfg.ok = true) {i : Instr} (hi : i.wellFormed cfg = true)
    (hx : ∀ frs d ra, i ≠ .stfs frs d ra ∧ i ≠ .stfsu frs d ra ∧ i ≠ .stfd frs d ra ∧ i ≠ .stfdu frs d ra) :
    (encode cfg i).toNat / 2 ^ 26 ∉ [52, 53, 54, 55] := by
  obtain ⟨op, frs, ra, rb, d, rfl⟩ | ⟨op, frt, ra, rb, sh, rfl⟩ := i.exists_row
  · obtain ⟨hrow, -⟩ := (encode_storeInstr_eq_iff cfg op frs ra rb d _).mp rfl
    obtain ⟨h1, h2, h3, h4⟩ := hx frs d ra
    rw [storeRow_iff] at hrow
    cases op
    case stfs => exact absurd rfl h1
    case stfsu => exact absurd rfl h2
    case stfd => exact absurd rfl h3
    case stfdu => exact absurd rfl h4
    case stfsx | stfsux | stfdx | stfdux | stfiwx =>
      rw [hrow.1]
      decide
  · rw [wellFormed_loadInstr, decide_eq_true_eq] at hi
    obtain ⟨hrow, -⟩ := (encode_loadInstr_eq_iff hc op frt ra rb hi _).mp rfl
    obtain ⟨-, -, hop⟩ := ok_parts hc
    obtain ⟨-, hpo, -⟩ := opcodeOk_parts (hop op)
    rw [(loadRow_iff.mp hrow).1]
    exact hpo

end Sys2Proof
end

section
/-! PROOFS. The statements of 30_encoding.md: the round trips, the decoding table, the reserved bit, the table words. -/

namespace Sys2Proof.Machine

/-- Settles O1: the row of the instruction matches its word, and the operands are read back. -/
theorem decodeInvertsEncode : Obligations.DecodeInvertsEncode := by
  intro cfg i hc hi
  obtain ⟨op, frs, ra, rb, d, rfl⟩ | ⟨op, frt, ra, rb, sh, rfl⟩ := i.exists_row
  · obtain ⟨hrow, hinstr⟩ := (encode_storeInstr_eq_iff cfg op frs ra rb d _).mp rfl
    rw [decode_of_storeRow cfg hrow, hinstr]
  · rw [wellFormed_loadInstr, decide_eq_true_eq] at hi
    obtain ⟨hrow, hinstr⟩ := (encode_loadInstr_eq_iff hc op frt ra rb hi _).mp rfl
    rw [decode_of_loadRow hc hrow, hinstr]

/-- Settles O2: the row and the operand fields of a word are all of its bits. -/
theorem encodeInvertsDecode : Obligations.EncodeInvertsDecode := by
  intro cfg w i hc hi
  obtain ⟨op, hrow, hd⟩ | ⟨op, hrow, hd⟩ | hd := decode_cases cfg w
  · obtain rfl : op.instrOf w = i := Except.ok.inj (hd.symm.trans hi)
    rw [StoreOp.instrOf_eq]
    exact ⟨(encode_storeInstr_eq_iff ..).mpr ⟨hrow, op.instrOf_eq w⟩, wellFormed_storeInstr ..⟩
  · obtain rfl : op.instrOf cfg w = i := Except.ok.inj (hd.symm.trans hi)
    obtain ⟨hl, -⟩ := ok_parts hc
    have hs : (Fin.ofNat 32 (wordField w cfg.shField) : Shift).val < 2 ^ cfg.shBits := by
      rw [val_shOf hl]
      exact (plainXo_wordField hl w).2.1
    rw [LoadOp.instrOf, wellFormed_loadInstr, decide_eq_true_eq]
    exact ⟨(encode_loadInstr_eq_iff hc op _ _ _ hs w).mpr ⟨hrow, rfl⟩, hs⟩
  · exact absurd (hi.symm.trans hd) (by simp)

/-- Settles O3: decoding finds the one row that matches; a word that decodes matches a row. -/
theorem decodeFollowsTheTable : Obligations.DecodeFollowsTheTable := by
  intro cfg w hc
  refine ⟨fun _ h => decode_of_storeRow cfg h, fun _ h => decode_of_loadRow hc h, fun hs hl => ?_,
    fun _ _ => storeRow_unique, fun _ _ => loadRow_unique hc, fun _ op' h => loadRow_eq_false_of_storeRow hc h op'⟩
  obtain ⟨op, hrow, -⟩ | ⟨op, hrow, -⟩ | hd := decode_cases cfg w
  · exact absurd hrow (hs op)
  · exact absurd hrow (Bool.eq_false_iff.mp (hl op))
  · exact hd

/-- Settles O4: an X-Form row asks for bit 31 zero, and the word has no primary opcode of a D-Form store. -/
theorem reservedBitSetIsIllegal : Obligations.ReservedBitSetIsIllegal := by
  intro cfg i hc hi hx
  have hor : (encode cfg i ||| 1).toNat = (encode cfg i).toNat ||| 1 := BitVec.toNat_or ..
  have hodd : (encode cfg i ||| 1).toNat % 2 = 1 := by
    rw [hor]
    exact Nat.or_mod_two_eq_one.mpr (.inr rfl)
  have hpo : (encode cfg i ||| 1).toNat / 2 ^ 26 ∉ [52, 53, 54, 55] := by
    rw [hor, or_one_div_two_pow]
    exact po_encode_of_xForm hc hi hx
  obtain ⟨op, hrow, -⟩ | ⟨op, hrow, -⟩ | hd := decode_cases cfg (encode cfg i ||| 1)
  · obtain hd | ⟨-, -, heven⟩ := storeRow_opcode hrow
    · exact absurd hd hpo
    · omega
  · obtain ⟨-, -, heven⟩ := loadRow_iff.mp hrow
    omega
  · exact hd

/-- Settles O5, by running the decoder on the five words. -/
theorem tableWordsDecode : Obligations.TableWordsDecode :=
  ⟨by decide, by decide, by decide, by decide, by decide⟩

end Sys2Proof.Machine
end

section
/-! PROOFS. Rules that the statements of 40_fp_load_shifted.md share: when an instruction completes (R80), two
instructions with the same checks (R90), and the widening and the copying of a loaded word (R88 to R90). -/

namespace Sys2Proof.Machine

/-! ## Completion -/

/-- An instruction whose checks pass completes with its effect (70_reset_and_hazards.md R141). -/
theorem exec_of_ready {i : Instr} {s : State} (h : s.ready i) : exec i s = .next (effect i s) := by
  obtain ⟨hfp, hform, hallow⟩ := h
  exact exec_eq_next_iff.mpr ⟨hfp, hform, memCheck_eq_none_iff.mpr hallow, rfl⟩

/-- An instruction completes exactly in the states that meet its conditions (70_reset_and_hazards.md R141). -/
theorem exists_exec_eq_next_iff {i : Instr} {s : State} : (∃ t, exec i s = .next t) ↔ s.ready i := by
  constructor
  · rintro ⟨t, h⟩
    obtain ⟨hfp, hform, hcheck, -⟩ := exec_eq_next_iff.mp h
    exact ⟨hfp, hform, memCheck_eq_none_iff.mp hcheck⟩
  · exact fun h => ⟨_, exec_of_ready h⟩

/-! ## Two instructions with the same checks -/

theorem mapNext_requireFp (f : State → State) (s : State) (k : Outcome) :
    mapNext f (requireFp s k) = requireFp s (mapNext f k) := by
  unfold requireFp
  split <;> rfl

theorem mapNext_requireForm (f : State → State) (i : Instr) (s : State) (k : Outcome) :
    mapNext f (requireForm i s k) = requireForm i s (mapNext f k) := by
  unfold requireForm
  split <;> rfl

theorem mapNext_requireAccess (f : State → State) (s : State) (ea : Doubleword) (n : Nat) (kind : AccessKind)
    (k : Outcome) : mapNext f (requireAccess s ea n kind k) = requireAccess s ea n kind (mapNext f k) := by
  unfold requireAccess
  split <;> rfl

/-- A valid form passes its check. -/
theorem requireForm_of_validForm {i : Instr} (h : i.validForm = true) (s : State) (k : Outcome) :
    requireForm i s k = k := if_pos h

/-- Two valid forms that make the same access fault alike, so their outcomes are related as their effects are. -/
theorem exec_eq_mapNext_exec {i j : Instr} {s : State} {f : State → State} (hi : i.validForm = true)
    (hj : j.validForm = true) (hea : effAddr j s = effAddr i s) (hbytes : accessBytes j = accessBytes i)
    (hkind : accessKind j = accessKind i) (heff : effect j s = f (effect i s)) :
    exec j s = mapNext f (exec i s) := by
  rw [exec_eq j, exec_eq i, mapNext_requireFp, mapNext_requireForm, mapNext_requireAccess,
    requireForm_of_validForm hi, requireForm_of_validForm hj, hea, hbytes, hkind, heff]
  rfl

/-- With RA not 0 the base (RA|0) is (RA): the update forms compute the EA of the forms without update (R81). -/
theorem eaShiftedUpdate_eq_eaShifted {ra : Reg} (h : ra ≠ 0) (s : State) (rb : Reg) (sh : Shift) :
    eaShiftedUpdate s ra rb sh = eaShifted s ra rb sh := by
  rw [eaShiftedUpdate, eaShifted, baseOrZero, if_neg h]

/-! ## Widening a word -/

@[simp] theorem toNat_zext64_word (w : Word) : (zext64 w).toNat = w.toNat :=
  BitVec.toNat_setWidth_of_le (by decide)

/-- Sign extension adds 32 copies of the sign bit above the word (R88). -/
theorem toNat_sext64_word (w : Word) :
    (sext64 w).toNat = (if w.toNat < 2 ^ 31 then 0 else 2 ^ 32 - 1) * 2 ^ 32 + w.toNat := by
  have hw : (w.setWidth 64).toNat = w.toNat := toNat_zext64_word w
  rw [sext64, BitVec.toNat_signExtend, hw, BitVec.msb_eq_decide]
  simp only [decide_eq_true_eq]
  split_ifs <;> omega

theorem toNat_sext64_word_mod (w : Word) : (sext64 w).toNat % 2 ^ 32 = w.toNat := by
  have := w.isLt
  rw [toNat_sext64_word]
  omega

theorem toNat_sext64_word_div (w : Word) :
    (sext64 w).toNat / 2 ^ 32 = if w.toNat < 2 ^ 31 then 0 else 2 ^ 32 - 1 := by
  have := w.isLt
  rw [toNat_sext64_word]
  omega

/-! ## Copying a word -/

/-- A word loaded and stored as it was, under the same byte order, has its four bytes copied in their order
(20_memory.md R43, R54). -/
theorem read_storeValue_loadWord {s t : State} (hbo : t.cfg.byteOrder = s.cfg.byteOrder) (ea ea' : Doubleword)
    {k : Nat} (hk : k < 4) :
    (t.storeValue ea' 4 (s.loadWord ea).toNat).mem.read ((ea'.toNat + k) % 2 ^ 64) =
      s.mem.read ((ea.toNat + k) % 2 ^ 64) := by
  have hbytes : (t.storeValue ea' 4 (s.loadWord ea).toNat).mem.readBytes ea' 4 = s.mem.readBytes ea 4 := by
    have hround := layOut_assemble s.cfg.byteOrder (s.mem.readBytes ea 4)
    rw [length_readBytes] at hround
    rw [readBytes_storeValue _ _ _ _ (by decide), loadWord_toNat, hbo, hround]
  exact List.map_inj_left.mp hbytes k (List.mem_range.mpr hk)

end Sys2Proof.Machine
end

section
/-! PROOFS. DOUBLE of every class of word, read by the fields of the result (40_fp_load_shifted.md R82), and SINGLE of
it (R90, 41_fp_store.md R102). -/

namespace Sys2Proof.Machine

/-! ## DOUBLE of every class of word -/

/-- The sign, the exponent field and the fraction of a doubleword given as the sum of the three. -/
theorem fields_of_toNat_eq {d : Doubleword} {sign e f : Nat} (h : d.toNat = sign * 2 ^ 63 + e * 2 ^ 52 + f)
    (he : e < 2 ^ 11) (hf : f < 2 ^ 52) :
    d.toNat / 2 ^ 63 = sign ∧ d.toNat / 2 ^ 52 % 2 ^ 11 = e ∧ d.toNat % 2 ^ 52 = f := by
  omega

/-- The magnitude of a normalized double, by its exponent field and its fraction. -/
theorem doubleMagnitude_of_normal {d : Doubleword} (h : d.toNat / 2 ^ 52 % 2 ^ 11 ≠ 0) :
    doubleMagnitude d = (2 ^ 52 + d.toNat % 2 ^ 52) * 2 ^ (d.toNat / 2 ^ 52 % 2 ^ 11 - 1) := if_neg h

/-- DOUBLE of an infinity or a NaN takes the third branch: all three copied bits are ones (R82). -/
theorem double_of_exponent_ones (w : Word) (h : w.toNat / 2 ^ 23 % 2 ^ 8 = 255) :
    (double w).toNat = w.toNat / 2 ^ 31 * 2 ^ 63 + 0x7FF * 2 ^ 52 + w.toNat % 2 ^ 23 * 2 ^ 29 := by
  have hw := w.isLt
  have hexp : slice 32 1 8 w.toNat = 255 := by simpa [slice] using h
  have hbit : slice 32 1 1 w.toNat = 1 := by simp [slice]; omega
  rw [double, hexp, if_neg (by omega), if_neg (by omega), spread, hbit, BitVec.toNat_ofNat]
  simp [slice]
  omega

/-- DOUBLE of a finite word that is not zero is normalized, of the same magnitude (the unit of a single is 2^925 units
of a double), and its low 29 bits are zero (R82). -/
theorem double_of_nonzero_finite (w : Word) (h : w.toNat / 2 ^ 23 % 2 ^ 8 < 255) (h0 : w.toNat % 2 ^ 31 ≠ 0) :
    ∃ e f, 1 ≤ e ∧ e < 2047 ∧ f < 2 ^ 52 ∧ f % 2 ^ 29 = 0 ∧
      (double w).toNat = w.toNat / 2 ^ 31 * 2 ^ 63 + e * 2 ^ 52 + f ∧
      (2 ^ 52 + f) * 2 ^ (e - 1) = singleMagnitude w * 2 ^ 925 := by
  by_cases he : w.toNat / 2 ^ 23 % 2 ^ 8 = 0
  · obtain ⟨k, hk1, hk23, hlow, hhigh, hd⟩ := double_of_denormal w he (by omega)
    have hmag : singleMagnitude w = w.toNat % 2 ^ 23 := if_pos he
    have hdvd : w.toNat % 2 ^ 23 * 2 ^ (29 + k) = w.toNat % 2 ^ 23 * 2 ^ k * 2 ^ 29 := by ring
    refine ⟨897 - k, _, by omega, by omega, by omega, by omega, hd, ?_⟩
    rw [Nat.add_sub_cancel' hlow, hmag, mul_assoc, ← pow_add]
    congr 2
    omega
  · have hmag : singleMagnitude w = (2 ^ 23 + w.toNat % 2 ^ 23) * 2 ^ (w.toNat / 2 ^ 23 % 2 ^ 8 - 1) := if_neg he
    refine ⟨_, _, by omega, by omega, by omega, by omega, double_of_normal w (by omega) h, ?_⟩
    have hsig : 2 ^ 52 + w.toNat % 2 ^ 23 * 2 ^ 29 = (2 ^ 23 + w.toNat % 2 ^ 23) * 2 ^ 29 := by omega
    have hexp : 29 + (w.toNat / 2 ^ 23 % 2 ^ 8 + 896 - 1) = w.toNat / 2 ^ 23 % 2 ^ 8 - 1 + 925 := by omega
    rw [hmag, hsig, Nat.mul_assoc, Nat.mul_assoc, ← Nat.pow_add, ← Nat.pow_add, hexp]

/-! ## SINGLE after DOUBLE -/

/-- A doubleword whose exponent field is above 896, or that is zero, is converted back by selecting bits: the sign with
the top exponent bit, and 30 bits below the three that are dropped (41_fp_store.md R102). -/
theorem single_eq_of_select {d : Doubleword} {w : Word} (h : 896 < d.toNat / 2 ^ 52 % 2 ^ 11 ∨ d.toNat % 2 ^ 63 = 0)
    (hw : w.toNat = d.toNat / 2 ^ 62 * 2 ^ 30 + d.toNat / 2 ^ 29 % 2 ^ 30) : single d = some w := by
  obtain ⟨v, hv, hnat⟩ := single_of_select d h
  rw [hv, BitVec.eq_of_toNat_eq (hnat.trans hw.symm)]

/-- A denormalized word comes back: SINGLE shifts right by the places that DOUBLE shifted left. -/
theorem single_double_of_denormal (w : Word) (he : w.toNat / 2 ^ 23 % 2 ^ 8 = 0) (hf : w.toNat % 2 ^ 23 ≠ 0) :
    single (double w) = some w := by
  obtain ⟨k, hk1, hk23, hlow, hhigh, hd⟩ := double_of_denormal w he hf
  obtain ⟨hsign, hexp, hfrac⟩ := fields_of_toNat_eq hd (by omega) (by omega)
  obtain ⟨v, hv, hnat⟩ := single_of_denormal (double w) (by omega) (by omega)
  have hshift : w.toNat % 2 ^ 23 * 2 ^ (29 + k) / 2 ^ k / 2 ^ 29 = w.toNat % 2 ^ 23 := by
    rw [Nat.div_div_eq_div_mul, ← pow_add, Nat.add_comm k 29, Nat.mul_div_cancel _ (by positivity)]
  rw [hsign, hexp, hfrac, Nat.add_sub_cancel' hlow, Nat.sub_sub_self (by omega), hshift] at hnat
  have hvw : v = w := BitVec.eq_of_toNat_eq (by omega)
  rw [hv, hvw]

/-- `SINGLE(DOUBLE(w)) = w`, by the four classes of words (R90 (5)). -/
theorem single_double (w : Word) : single (double w) = some w := by
  have hw := w.isLt
  by_cases hones : w.toNat / 2 ^ 23 % 2 ^ 8 = 255
  · have hd := double_of_exponent_ones w hones
    exact single_eq_of_select (by omega) (by omega)
  by_cases he : w.toNat / 2 ^ 23 % 2 ^ 8 = 0
  · by_cases hf : w.toNat % 2 ^ 23 = 0
    · have hd := double_of_zero w (by omega)
      exact single_eq_of_select (by omega) (by omega)
    · exact single_double_of_denormal w he hf
  · have hd := double_of_normal w (by omega) (by omega)
    exact single_eq_of_select (by omega) (by omega)

end Sys2Proof.Machine
end

section
/-! PROOFS. The statements of 40_fp_load_shifted.md: DOUBLE and its inverse (R82, R90), the six loads (R84 to R89), and
what they have in common (R90); and what a load and a store leave of storage (R80, 41_fp_store.md R112). -/

namespace Sys2Proof.Machine

/-- Settles O31: a zero keeps its sign; every other finite word becomes normalized, of the same magnitude. -/
theorem doubleOfFiniteIsExact : Obligations.DoubleOfFiniteIsExact := by
  intro w hfin
  by_cases hzero : w.toNat % 2 ^ 31 = 0
  · have hd : (double w).toNat = w.toNat / 2 ^ 31 * 2 ^ 63 + 0 * 2 ^ 52 + 0 := by
      rw [double_of_zero w hzero, Nat.zero_mul, Nat.add_zero]
    obtain ⟨hsign, hexp, hfrac⟩ := fields_of_toNat_eq hd (by omega) (by omega)
    have hdm : doubleMagnitude (double w) = 0 := (if_pos hexp).trans hfrac
    have hsm : singleMagnitude w = 0 := (if_pos (by omega)).trans (by omega)
    refine ⟨?_, hsign, by omega, by omega, by omega⟩
    rw [hdm, hsm, Nat.zero_mul]
  · obtain ⟨e, f, he1, he, hf, hlow, hd, hmag⟩ := double_of_nonzero_finite w hfin hzero
    obtain ⟨hsign, hexp, hfrac⟩ := fields_of_toNat_eq hd (by omega) hf
    refine ⟨?_, hsign, by omega, by omega, by omega⟩
    rw [doubleMagnitude_of_normal (by omega), hexp, hfrac, hmag]

/-- Settles O32: the third branch of DOUBLE. -/
theorem doubleKeepsInfinitiesAndNans : Obligations.DoubleKeepsInfinitiesAndNans := double_of_exponent_ones

/-- Settles O35, by the four classes of words. -/
theorem singleInvertsDouble : Obligations.SingleInvertsDouble := single_double

/-- Settles O36: a load that is ready completes with its effect. -/
theorem lfssxLoadsSingleAsDouble : Obligations.LfssxLoadsSingleAsDouble :=
  fun _ _ _ _ _ hfp hallow => exec_of_ready ⟨hfp, rfl, hallow⟩

/-- Settles O37: RA not 0 makes the form valid, and the load completes with its effect. -/
theorem lfsusxLoadsSingleAndUpdates : Obligations.LfsusxLoadsSingleAndUpdates :=
  fun _ _ _ _ _ hfp hra hallow => exec_of_ready ⟨hfp, decide_eq_true hra, hallow⟩

/-- Settles O38: a load that is ready completes with its effect. -/
theorem lfdsxLoadsDoubleword : Obligations.LfdsxLoadsDoubleword :=
  fun _ _ _ _ _ hfp hallow => exec_of_ready ⟨hfp, rfl, hallow⟩

/-- Settles O39: RA not 0 makes the form valid, and the load completes with its effect. -/
theorem lfdusxLoadsDoublewordAndUpdates : Obligations.LfdusxLoadsDoublewordAndUpdates :=
  fun _ _ _ _ _ hfp hra hallow => exec_of_ready ⟨hfp, decide_eq_true hra, hallow⟩

/-- Settles O40: the value loaded is the word, sign-extended. -/
theorem lfiwasxLoadsSignExtendedWord : Obligations.LfiwasxLoadsSignExtendedWord := by
  intro frt ra rb sh s hfp hallow
  exact ⟨sext64 (s.loadWord (eaShifted s ra rb sh)), exec_of_ready ⟨hfp, rfl, hallow⟩, toNat_sext64_word_mod _,
    toNat_sext64_word_div _⟩

/-- Settles O41: the value loaded is the word, zero-extended. -/
theorem lfiwzsxLoadsZeroExtendedWord : Obligations.LfiwzsxLoadsZeroExtendedWord := by
  intro frt ra rb sh s hfp hallow
  exact ⟨zext64 (s.loadWord (eaShifted s ra rb sh)), exec_of_ready ⟨hfp, rfl, hallow⟩, toNat_zext64_word _⟩

/-- Settles O55: with RA not 0 both forms are valid and make the same access, and the update is the last of the
effect but for `pc`. -/
theorem updateLoadIsLoadAndUpdate : Obligations.UpdateLoadIsLoadAndUpdate := by
  intro frt ra rb sh s hra
  have hea := eaShiftedUpdate_eq_eaShifted hra s rb sh
  constructor
  all_goals
    refine exec_eq_mapNext_exec rfl (decide_eq_true hra) hea rfl rfl ?_
    simp only [effect, effAddr, hea]
    rfl

/-- Settles O56: the three loads have the same conditions, and their effects write the target of the same state. -/
theorem wordLoadsDifferOnlyInWidening : Obligations.WordLoadsDifferOnlyInWidening := by
  intro frt ra rb sh s
  simp only [exists_exec_eq_next_iff]
  refine ⟨Iff.rfl, Iff.rfl, fun t a z ht ha hz => ?_⟩
  obtain ⟨-, -, -, rfl⟩ := exec_eq_next_iff.mp ht
  obtain ⟨-, -, -, rfl⟩ := exec_eq_next_iff.mp ha
  obtain ⟨-, -, -, rfl⟩ := exec_eq_next_iff.mp hz
  have hword : (effect (.lfiwasx frt ra rb sh) s).readFpr frt = sext64 (s.loadWord (eaShifted s ra rb sh)) :=
    readFpr_loadFpr_self s frt _ false
  refine ⟨hword, ?_, ?_, ?_⟩
  · simp [effect, effAddr, State.loadFpr, State.advance]
  · simp [effect, effAddr, State.loadFpr, State.advance, zext64]
  · rw [hword, toNat_readFpr_effect_lfiwzsx, toNat_sext64_word_mod, Nat.mod_eq_of_lt (s.loadWord _).isLt]

/-- Settles O53: `stfs` lays out the word that `lfssx` assembled, in the same byte order. -/
theorem singleIsCopiedBitForBit : Obligations.SingleIsCopiedBitForBit := by
  intro fr ra rb ra' sh d s t u hload hstore k hk
  obtain ⟨-, -, -, rfl⟩ := exec_eq_next_iff.mp hload
  obtain ⟨-, -, -, rfl⟩ := exec_eq_next_iff.mp hstore
  have hreg : (effect (.lfssx fr ra rb sh) s).readFpr fr = double (s.loadWord (eaShifted s ra rb sh)) :=
    readFpr_loadFpr_self s fr _ true
  obtain ⟨hmem, -⟩ := effect_mem_of_store (.stfs fr d ra') (effect (.lfssx fr ra rb sh) s) rfl
  rw [hmem, storedValue, hreg, single_double, Option.getD_some]
  exact read_storeValue_loadWord (congrArg Config.byteOrder (effect_cfg _ s)) _ _ hk

/-- Settles O25: a load writes no storage; a store writes the bytes at EA, as the shared operation does. -/
theorem onlyTheStoredBytesChange : Obligations.OnlyTheStoredBytesChange := by
  intro i s t h
  obtain ⟨-, -, -, rfl⟩ := exec_eq_next_iff.mp h
  constructor
  · intro hload
    obtain ⟨frt, hl⟩ := accessKind_eq_load_iff.mp hload
    exact effect_mem_of_load i s frt hl
  · intro hstore a ha
    obtain ⟨hmem, -⟩ := effect_mem_of_store i s (accessKind_eq_store_iff.mp hstore)
    rw [hmem, storeValue_mem, read_writeBytes_outside]
    simpa [byteAddr] using ha

end Sys2Proof.Machine
end

section
/-! PROOFS. Rules that the statements of 41_fp_store.md share: what a completed store leaves (R103 to R112), SINGLE by
the fields of its operand (R102), the word of an integer in a register (R111), and a doubleword stored and loaded back
(20_memory.md R54). -/

namespace Sys2Proof.Machine

/-! ## What a completed store leaves -/

/-- The counter of draws after an instruction: one more where the word to store is undefined (R102, R111). -/
def drawsAfter (i : Instr) (s : State) : Nat :=
  match i with
  | .stfs frs _ _ | .stfsx frs _ _ | .stfsu frs _ _ | .stfsux frs _ _ =>
    if single (s.readFpr frs) = none then s.draws + 1 else s.draws
  | .stfiwx frs _ _ => if s.tagOf frs = true then s.draws + 1 else s.draws
  | _ => s.draws

theorem orDraw_draws (s : State) (w : Option Word) :
    (s.orDraw w).2.draws = if w = none then s.draws + 1 else s.draws := by
  cases w <;> rfl

/-- The word of an integer is undefined exactly when the tag is true (R111). -/
theorem integerWord_eq_none_iff {s : State} {frs : Reg} : integerWord s frs = none ↔ s.tagOf frs = true := by
  simp [integerWord]

theorem effect_draws (i : Instr) (s : State) : (effect i s).draws = drawsAfter i s := by
  cases i with
  | stfs | stfsx | stfsu | stfsux => exact orDraw_draws s _
  | stfiwx =>
    simp only [drawsAfter, ← integerWord_eq_none_iff]
    exact orDraw_draws s _
  | _ => rfl

theorem accessBytes_le (i : Instr) : accessBytes i ≤ 8 := by
  cases i <;> simp [accessBytes]

/-- A store that is ready completes: its value is in storage at EA, RA of an update form holds EA, and nothing else
changes but the marks, `pc` and the counter of draws (R112). -/
theorem exec_store_of_ready {i : Instr} {s : State} (h : s.ready i) (hstore : loadTarget i = none) :
    ∃ t, exec i s = .next t ∧ s.storedInto t (effAddr i s) (accessBytes i) (storedValue i s) ∧
      t = { s with
        mem := t.mem, overwritten := t.overwritten, pc := s.pc + 4, draws := drawsAfter i s
        gpr := match updateReg i with
          | some ra => s.gpr.set ra.val (effAddr i s)
          | none => s.gpr } := by
  refine ⟨effect i s, exec_of_ready h, ?_, ?_⟩
  · have hbytes : accessBytes i ≤ 2 ^ 64 := (accessBytes_le i).trans (by decide)
    obtain ⟨hmem, -⟩ := effect_mem_of_store i s hstore
    simp only [State.storedInto, hmem]
    exact storeValue_storedInto s _ _ _ hbytes
  · obtain ⟨hfpr, htag⟩ := effect_fpr_of_store i s hstore
    exact (State.mk.injEq ..).mpr ⟨effect_gpr i s, hfpr, htag, effect_pc i s, effect_fpAvail i s, rfl,
      effect_program i s, effect_cfg i s, rfl, effect_draws i s⟩

/-! ## SINGLE -/

theorem single_eq_none_iff (d : Doubleword) :
    single d = none ↔ d.toNat / 2 ^ 52 % 2 ^ 11 < 874 ∧ d.toNat % 2 ^ 63 ≠ 0 := by
  have hexp : slice 64 1 11 d.toNat = d.toNat / 2 ^ 52 % 2 ^ 11 := by simp [slice]
  have hmag : slice 64 1 63 d.toNat = d.toNat % 2 ^ 63 := by simp [slice]
  rw [single, hexp, hmag]
  split_ifs with hselect hdenormal
  · exact iff_of_false (by simp) (by omega)
  · exact iff_of_false (by simp) (by omega)
  · exact iff_of_true rfl (by omega)

/-- In the range of the single denormals SINGLE keeps the sign, and its fraction is the magnitude of the double in
units of 2^-149, the rest dropped (R102). -/
theorem single_fields_of_denormal {d : Doubleword} (h0 : 874 ≤ d.toNat / 2 ^ 52 % 2 ^ 11)
    (h1 : d.toNat / 2 ^ 52 % 2 ^ 11 ≤ 896) :
    ∃ w : Word, single d = some w ∧ w.toNat / 2 ^ 31 = d.toNat / 2 ^ 63 ∧ w.toNat / 2 ^ 23 % 2 ^ 8 = 0 ∧
      singleMagnitude w = doubleMagnitude d / 2 ^ 925 := by
  obtain ⟨w, hw, hnat⟩ := single_of_denormal d h0 h1
  have hmag : doubleMagnitude d / 2 ^ 925 =
      (2 ^ 52 + d.toNat % 2 ^ 52) / 2 ^ (897 - d.toNat / 2 ^ 52 % 2 ^ 11) / 2 ^ 29 := by
    have hunit : 2 ^ 925 = 2 ^ (897 - d.toNat / 2 ^ 52 % 2 ^ 11) * 2 ^ 29 * 2 ^ (d.toNat / 2 ^ 52 % 2 ^ 11 - 1) := by
      rw [← Nat.pow_add, ← Nat.pow_add]
      congr 1
      omega
    rw [doubleMagnitude_of_normal (by omega), hunit, Nat.mul_div_mul_right _ _ (by positivity), Nat.div_div_eq_div_mul]
  have hfrac : doubleMagnitude d / 2 ^ 925 < 2 ^ 23 := by
    have hshift : (2 ^ 52 + d.toNat % 2 ^ 52) / 2 ^ (897 - d.toNat / 2 ^ 52 % 2 ^ 11) ≤
        (2 ^ 52 + d.toNat % 2 ^ 52) / 2 ^ 1 :=
      Nat.div_le_div_left (Nat.pow_le_pow_right (by decide) (by omega)) (by decide)
    omega
  rw [← hmag] at hnat
  generalize doubleMagnitude d / 2 ^ 925 = m at hnat hfrac ⊢
  have hsign := d.isLt
  have hexp : w.toNat / 2 ^ 23 % 2 ^ 8 = 0 := by omega
  have hsingle : singleMagnitude w = w.toNat % 2 ^ 23 := if_pos hexp
  exact ⟨w, hw, by omega, hexp, by omega⟩

/-! ## The word of an integer -/

theorem slice_low_word (v : Nat) : slice 64 32 63 v = v % 2 ^ 32 := by simp [slice]

/-- The word `stfiwx` stores, as a number: the low word, or a draw (R111). -/
theorem toNat_getD_integerWord (s : State) (frs : Reg) (w : Word) :
    ((integerWord s frs).getD w).toNat = if s.tagOf frs = true then w.toNat else (s.readFpr frs).toNat % 2 ^ 32 := by
  rw [integerWord, slice_low_word]
  split
  · rfl
  · exact (BitVec.toNat_ofNat _ _).trans (Nat.mod_mod _ _)

theorem toNat_zext64_word_mod (w : Word) : (zext64 w).toNat % 2 ^ 32 = w.toNat := by
  rw [toNat_zext64_word, Nat.mod_eq_of_lt w.isLt]

/-- A register that an integer load filled, from a word that is the low word of its contents, holds that word
(10_state.md R27, R111). -/
theorem integerWord_loadFpr {s : State} {frt : Reg} {v : Doubleword} {w : Word} (h : v.toNat % 2 ^ 32 = w.toNat) :
    integerWord (s.loadFpr frt v false) frt = some w := by
  rw [integerWord, tagOf_loadFpr_self, readFpr_loadFpr_self, slice_low_word, h, BitVec.ofNat_toNat]
  simp

/-- What `stfiwx` finds in the target of an integer load: the word loaded, whichever way it was widened
(40_fp_load_shifted.md R88, R89). -/
theorem integerWord_effect_of_integerLoad {i : Instr} {fr ra rb : Reg} {sh : Shift}
    (h : i = .lfiwzsx fr ra rb sh ∨ i = .lfiwasx fr ra rb sh) (s : State) :
    integerWord (effect i s) fr = some (s.loadWord (eaShifted s ra rb sh)) := by
  obtain rfl | rfl := h
  · exact integerWord_loadFpr (toNat_zext64_word_mod _)
  · exact integerWord_loadFpr (toNat_sext64_word_mod _)

/-! ## A doubleword stored and loaded back -/

theorem loadDoubleword_storeDoubleword (s : State) (ea d : Doubleword) :
    (s.storeDoubleword ea d).loadDoubleword ea = d := by
  apply BitVec.eq_of_toNat_eq
  rw [loadDoubleword_toNat, storeDoubleword_cfg, State.storeDoubleword, readBytes_storeValue _ _ _ _ (by decide),
    assemble_layOut]
  exact Nat.mod_eq_of_lt d.isLt

end Sys2Proof.Machine
end

section
/-! PROOFS. The statements of 41_fp_store.md: SINGLE (R102), the nine stores (R103 to R111), and a store and a load
together (R107, R111). -/

namespace Sys2Proof.Machine

/-- Settles O33, by the three branches of SINGLE. -/
theorem singleUndefinedExactlyBelowDenormals : Obligations.SingleUndefinedExactlyBelowDenormals := single_eq_none_iff

/-- Settles O34: a zero and an exponent field above 896 are selections of bits; the range between 874 and 896 is the
shift. -/
theorem singleTruncates : Obligations.SingleTruncates := by
  intro d
  have hd := d.isLt
  refine ⟨fun h0 _ => ?_, fun h0 h1 => single_fields_of_denormal h0 h1, fun h0 => ?_, fun hzero => ?_⟩
  · obtain ⟨w, hw, hnat⟩ := single_of_select d (.inl (by omega))
    exact ⟨w, hw, by omega, by omega, by omega⟩
  · obtain ⟨w, hw, hnat⟩ := single_of_select d (.inl (by omega))
    exact ⟨w, hw, by omega, by omega, by omega⟩
  · obtain ⟨w, hw, hnat⟩ := single_of_select d (.inr hzero)
    refine ⟨w, hw, hnat.trans ?_⟩
    omega

/-- Settles O42: a store that is ready completes, with SINGLE of the register or a draw. -/
theorem stfsStoresSingle : Obligations.StfsStoresSingle :=
  fun _ _ _ _ hfp hallow => exec_store_of_ready ⟨hfp, rfl, hallow⟩ rfl

/-- Settles O43: as `stfs`, at the indexed EA. -/
theorem stfsxStoresSingle : Obligations.StfsxStoresSingle :=
  fun _ _ _ _ hfp hallow => exec_store_of_ready ⟨hfp, rfl, hallow⟩ rfl

/-- Settles O44: RA not 0 makes the form valid, and the store completes with the update. -/
theorem stfsuStoresSingleAndUpdates : Obligations.StfsuStoresSingleAndUpdates :=
  fun _ _ _ _ hfp hra hallow => exec_store_of_ready ⟨hfp, decide_eq_true hra, hallow⟩ rfl

/-- Settles O45: as `stfsu`, at the indexed EA. -/
theorem stfsuxStoresSingleAndUpdates : Obligations.StfsuxStoresSingleAndUpdates :=
  fun _ _ _ _ hfp hra hallow => exec_store_of_ready ⟨hfp, decide_eq_true hra, hallow⟩ rfl

/-- Settles O46: a store that is ready completes, with the register as it is. -/
theorem stfdStoresDoubleword : Obligations.StfdStoresDoubleword :=
  fun _ _ _ _ hfp hallow => exec_store_of_ready ⟨hfp, rfl, hallow⟩ rfl

/-- Settles O47: as `stfd`, at the indexed EA. -/
theorem stfdxStoresDoubleword : Obligations.StfdxStoresDoubleword :=
  fun _ _ _ _ hfp hallow => exec_store_of_ready ⟨hfp, rfl, hallow⟩ rfl

/-- Settles O48: RA not 0 makes the form valid, and the store completes with the update. -/
theorem stfduStoresDoublewordAndUpdates : Obligations.StfduStoresDoublewordAndUpdates :=
  fun _ _ _ _ hfp hra hallow => exec_store_of_ready ⟨hfp, decide_eq_true hra, hallow⟩ rfl

/-- Settles O49: as `stfdu`, at the indexed EA. -/
theorem stfduxStoresDoublewordAndUpdates : Obligations.StfduxStoresDoublewordAndUpdates :=
  fun _ _ _ _ hfp hra hallow => exec_store_of_ready ⟨hfp, decide_eq_true hra, hallow⟩ rfl

/-- Settles O50: a store that is ready completes, with the low word or, by the tag, a draw. -/
theorem stfiwxStoresLowWordOrDraw : Obligations.StfiwxStoresLowWordOrDraw := by
  intro frs ra rb s hfp hallow
  rw [← toNat_getD_integerWord]
  exact exec_store_of_ready (i := .stfiwx frs ra rb) ⟨hfp, rfl, hallow⟩ rfl

/-- Settles O51: `lfdsx` loads from the storage that `stfd` left, at the same address. -/
theorem doublewordSurvivesStoreAndLoad : Obligations.DoublewordSurvivesStoreAndLoad := by
  intro frs d ra frt ra' rb sh s t u hstore hload hea
  obtain ⟨-, -, -, rfl⟩ := exec_eq_next_iff.mp hstore
  obtain ⟨-, -, -, rfl⟩ := exec_eq_next_iff.mp hload
  have hreg : (effect (.lfdsx frt ra' rb sh) (effect (.stfd frs d ra) s)).readFpr frt =
      (effect (.stfd frs d ra) s).loadDoubleword (eaShifted (effect (.stfd frs d ra) s) ra' rb sh) :=
    readFpr_loadFpr_self _ frt _ false
  rw [hreg, hea]
  exact loadDoubleword_storeDoubleword s (eaDisp s d ra) (s.readFpr frs)

/-- Settles O54: `stfiwx` lays out the word that the integer load assembled, in the same byte order. -/
theorem integerWordIsCopiedBitForBit : Obligations.IntegerWordIsCopiedBitForBit := by
  intro i fr ra rb ra' rb' sh s t u hi hload hstore k hk
  obtain ⟨-, -, -, rfl⟩ := exec_eq_next_iff.mp hload
  obtain ⟨-, -, -, rfl⟩ := exec_eq_next_iff.mp hstore
  obtain ⟨hmem, -⟩ := effect_mem_of_store (.stfiwx fr ra' rb') (effect i s) rfl
  rw [hmem, storedValue, integerWord_effect_of_integerLoad hi, Option.getD_some]
  exact read_storeValue_loadWord (congrArg Config.byteOrder (effect_cfg i s)) _ _ hk

end Sys2Proof.Machine
end

section
/-! PROOFS. Rules that the statements of 60_exceptions.md share: how a step faults before its instruction is run (R125,
R126), and when an instruction raises each of its faults (R123, R124, R126, R127). -/

namespace Sys2Proof.Machine

/-! ## Faults of the step -/

theorem step_of_fetch_fault {s : State} {f : Fault} (h : fetch s = .fault f) : step s = .fault f := by
  simp only [step, h]

/-- A fetched word that does not decode is `IllegalInstruction` (60_exceptions.md R125). -/
theorem step_of_decode_error {s : State} {w : Word} {e : Reject} (hf : fetch s = .next w)
    (hd : decode s.cfg w = .error e) : step s = .fault (.illegalInstruction w s.pc) := by
  simp only [step, hf, runWord, hd, raise]

/-- A fetch faults at a word outside Program or at a byte that may not be fetched (20_memory.md R52). -/
theorem fetch_eq_storageFault_iff {s : State} {a : Doubleword} {k : AccessKind} :
    fetch s = .fault (.storageFault a k) ↔
      a = s.pc ∧ k = .fetch ∧ (lookup s.pc.toNat s.program = none ∨
        ∃ j, j < 4 ∧ memValid s.cfg ((s.pc.toNat + j) % 2 ^ 64) .fetch = false) := by
  rw [fetch_eq_fault_iff, accessValid_false_iff, Fault.storageFault.injEq, and_assoc]

/-! ## Faults of an instruction -/

theorem exec_of_fpAvail_eq_false {s : State} (h : s.fpAvail = false) (i : Instr) :
    exec i s = .fault (.fpUnavailable s.pc) :=
  exec_eq_fault_iff.mpr (.inl ⟨h, rfl⟩)

theorem exec_eq_invalidForm_iff {i : Instr} {s : State} {w : Word} {p : Doubleword} :
    exec i s = .fault (.invalidForm w p) ↔
      s.fpAvail = true ∧ w = encode s.cfg i ∧ p = s.pc ∧ updateReg i = some 0 := by
  simp [exec_eq_fault_iff, memCheck_eq_some_iff, validForm_eq_false_iff, and_assoc, and_comm, and_left_comm]

theorem exec_eq_alignmentFault_iff {i : Instr} {s : State} {a : Doubleword} :
    exec i s = .fault (.alignmentFault a) ↔
      s.fpAvail = true ∧ updateReg i ≠ some 0 ∧ s.cfg.alignPolicy = .fault ∧
        (effAddr i s).toNat % accessBytes i ≠ 0 ∧ a = effAddr i s := by
  simp [exec_eq_fault_iff, memCheck_eq_some_iff, validForm_eq_true_iff]

theorem exec_eq_storageFault_iff {i : Instr} {s : State} {a : Doubleword} {k : AccessKind} :
    exec i s = .fault (.storageFault a k) ↔
      s.fpAvail = true ∧ updateReg i ≠ some 0 ∧
        (s.cfg.alignPolicy = .perform ∨ (effAddr i s).toNat % accessBytes i = 0) ∧
        (∃ j, j < accessBytes i ∧ memValid s.cfg (((effAddr i s).toNat + j) % 2 ^ 64) (accessKind i) = false) ∧
        a = effAddr i s ∧ k = accessKind i := by
  simp [exec_eq_fault_iff, memCheck_eq_some_iff, validForm_eq_true_iff, accessValid_false_iff]

/-- The six update forms with RA = 0, by name (30_encoding.md R68). -/
theorem updateReg_eq_some_zero_iff {i : Instr} :
    updateReg i = some 0 ↔
      (∃ frt rb sh, i = .lfsusx frt 0 rb sh ∨ i = .lfdusx frt 0 rb sh) ∨
        (∃ frs d, i = .stfsu frs d 0 ∨ i = .stfdu frs d 0) ∨
        ∃ frs rb, i = .stfsux frs 0 rb ∨ i = .stfdux frs 0 rb := by
  cases i <;> simp [updateReg]

theorem accessBytes_eq_four_or_eight (i : Instr) : accessBytes i = 4 ∨ accessBytes i = 8 := by
  cases i <;> simp [accessBytes]

end Sys2Proof.Machine
end

section
/-! PROOFS. The statements of 60_exceptions.md: when each fault is raised (R123 to R127), and the first that applies
(R128). -/

namespace Sys2Proof.Machine

/-- Settles O10: a word that does not decode faults, and with bit 31 set an X-Form word does not decode (O4). -/
theorem undecodableWordIsIllegalInstruction : Obligations.UndecodableWordIsIllegalInstruction :=
  ⟨fun _ _ _ => step_of_decode_error,
    fun s i hc hi hx hf => step_of_decode_error hf (reservedBitSetIsIllegal s.cfg i hc hi hx)⟩

/-- Settles O16: availability is the first check of every instruction, and decoding comes before the instruction. -/
theorem fpUnavailableComesFirst : Obligations.FpUnavailableComesFirst :=
  ⟨fun i _ hfp => exec_of_fpAvail_eq_false hfp i,
    fun _ _ i hfp hf hd => (step_eq_exec hf hd).trans (exec_of_fpAvail_eq_false hfp i),
    fun _ _ _ _ => step_of_decode_error⟩

/-- Settles O17: the forms that the form check rejects are the six update forms with RA = 0. -/
theorem invalidFormExactlyUpdateWithRaZero : Obligations.InvalidFormExactlyUpdateWithRaZero := by
  intro i s w p
  rw [exec_eq_invalidForm_iff, updateReg_eq_some_zero_iff]

/-- Settles O18: of the faults of an instruction only the access check raises this one, and fetch raises none but
`StorageFault`. -/
theorem alignmentFaultExactlyUnderPolicy : Obligations.AlignmentFaultExactlyUnderPolicy := by
  refine ⟨accessBytes_eq_four_or_eight, fun _ _ _ => exec_eq_alignmentFault_iff, fun s a h => ?_⟩
  obtain ⟨hfault, -⟩ := fetch_eq_fault_iff.mp h
  cases hfault

/-- Settles O19: the access check and the fetch raise this fault at a byte that is not valid. -/
theorem storageFaultExactlyWhereInvalid : Obligations.StorageFaultExactlyWhereInvalid :=
  ⟨fun _ _ _ _ => exec_eq_storageFault_iff, fun _ _ _ => fetch_eq_storageFault_iff⟩

/-- Settles O13: the fetch faults, or its word does not decode, or the step is the instruction's run, whose faults are
those above; the recorded word of an invalid form is the fetched one (O2). -/
theorem firstApplicableFaultIsReported : Obligations.FirstApplicableFaultIsReported := by
  intro s hc
  refine ⟨fun hnone => step_of_fetch_fault (fetch_eq_storageFault_iff.mpr ⟨rfl, rfl, .inl hnone⟩),
    fun w hw => ⟨fun ⟨k, hk, hinvalid⟩ => ?_, fun hvalid hmark => ?_⟩⟩
  · exact step_of_fetch_fault
      (fetch_eq_storageFault_iff.mpr ⟨rfl, rfl, .inr ⟨k, List.mem_range.mp hk, hinvalid⟩⟩)
  have hf : fetch s = .next w := fetch_eq_next_iff.mpr ⟨hw, accessValid_iff.mpr hvalid, hmark⟩
  refine ⟨fun e hd => step_of_decode_error hf hd, fun i hd => ?_⟩
  obtain ⟨hword, -⟩ := encodeInvertsDecode s.cfg w i hc hd
  rw [step_eq_exec hf hd]
  refine ⟨fun hfp => exec_of_fpAvail_eq_false hfp i, fun hfp hra => ?_, fun hfp hra hpolicy hea => ?_,
    fun hfp hra halign ⟨k, hk, hinvalid⟩ => ?_, fun hfp hra hallow => ?_⟩
  · exact exec_eq_invalidForm_iff.mpr ⟨hfp, hword.symm, rfl, hra⟩
  · exact exec_eq_alignmentFault_iff.mpr ⟨hfp, hra, hpolicy, hea, rfl⟩
  · exact exec_eq_storageFault_iff.mpr ⟨hfp, hra, halign, ⟨k, List.mem_range.mp hk, hinvalid⟩, rfl, rfl⟩
  · exact exists_exec_eq_next_iff.mpr ⟨hfp, validForm_eq_true_iff.mpr hra, hallow⟩

end Sys2Proof.Machine
end

section
/-! PROOFS. The statements of 70_reset_and_hazards.md about completion (R141) and about runs (R144), with the rules
of `runTo` they need. -/

namespace Sys2Proof.Machine

/-! ## Runs that end at EndPC -/

/-- A run starts with its first step. -/
theorem run_succ_of_step {s u : State} (h : step s = .next u) (k : Nat) :
    Sys2Proof.core.run (k + 1) s = Sys2Proof.core.run k u := by
  have hcore : Sys2Proof.core.step s = .next u := h
  simp only [Host.Core.run, hcore]

/-- A run towards EndPC with steps left is over at EndPC; elsewhere it is a completed step and the run from there. -/
theorem runTo_succ_eq_next {endPC : Doubleword} {k : Nat} {s t : State} (h : runTo endPC (k + 1) s = .next t) :
    (s.pc = endPC ∧ s = t) ∨ (s.pc ≠ endPC ∧ ∃ u : State, step s = .next u ∧ runTo endPC k u = .next t) := by
  rw [runTo] at h
  split at h
  next hpc => exact .inl ⟨hpc, Host.Outcome.next.inj h⟩
  next hpc =>
    cases hs : step s with
    | next u => rw [hs] at h; exact .inr ⟨hpc, u, rfl, h⟩
    | fault f => rw [hs] at h; cases h
    | refused r => rw [hs] at h; cases h

/-- If no step is taken at EndPC from the state after the first step on, and the first is not taken there, none is. -/
theorem run_avoids_succ {endPC : Doubleword} {j : Nat} {s v : State} (hpc : s.pc ≠ endPC) (hstep : step s = .next v)
    (havoid : ∀ n u, n < j → Sys2Proof.core.run n v = .next u → u.pc ≠ endPC) :
    ∀ n u, n < j + 1 → Sys2Proof.core.run n s = .next u → u.pc ≠ endPC
  | 0, _, _, hrun => Host.Outcome.next.inj hrun ▸ hpc
  | n + 1, u, hn, hrun => havoid n u (Nat.lt_of_succ_lt_succ hn) (run_succ_of_step hstep n ▸ hrun)

/-- Settles O15, by induction on the steps given: the run takes none, or is at EndPC and takes none, or takes one and
goes on as the induction says. -/
theorem runEndsAtEndPcOrAfterAllSteps : Obligations.RunEndsAtEndPcOrAfterAllSteps := by
  intro endPC k
  induction k with
  | zero => exact fun s t h => ⟨0, Nat.le_refl 0, h, .inr rfl, fun _ _ hn => absurd hn (Nat.not_lt_zero _)⟩
  | succ k ih =>
    intro s t h
    obtain ⟨hpc, rfl⟩ | ⟨hpc, v, hstep, hrest⟩ := runTo_succ_eq_next h
    · exact ⟨0, Nat.zero_le _, rfl, .inl hpc, fun _ _ hn => absurd hn (Nat.not_lt_zero _)⟩
    · obtain ⟨j, hj, hrun, hend, havoid⟩ := ih v t hrest
      exact ⟨j + 1, Nat.succ_le_succ hj, (run_succ_of_step hstep j).trans hrun, hend.imp_right (congrArg Nat.succ),
        run_avoids_succ hpc hstep havoid⟩

/-! ## Completion -/

/-- Settles O20: in a state that meets its conditions every check of an instruction passes, and its effect follows. -/
theorem everyInstructionCompletesWhenReady : Obligations.EveryInstructionCompletesWhenReady :=
  fun i s h => ⟨effect i s, exec_of_ready h⟩

end Sys2Proof.Machine
end
